-- ==== Sys2Proof/Word.lean ====
section
/-! DEFINITION. The word types of the block (00_scope.md R4, R8): 8-bit values and 16-bit values, unsigned. -/

namespace Sys2Proof

/-- An 8-bit value: a register a to l, an opcode byte, a byte of IMEM (R4, R60). -/
abbrev Byte := BitVec 8

/-- A 16-bit value: sp, pc, a wide register, an address of IMEM (R4, R60). -/
abbrev Word := BitVec 16

end Sys2Proof
end

