-- ==== Sys2Proof/Config.lean ====
section
/-! DEFINITION. What is fixed for this hardware: the parameter OPC_ADD_A_B, the reset values, and the values the
model names where the spec gives none (each with its row of the assumption log). -/

namespace Sys2Proof.Config

/-- `OPC_ADD_A_B` (00_scope.md R5, 30_encoding.md R82). PRESUMED: the spec takes 0x80 from general knowledge and decides it
(D4); log 3, unsafe. The decoder, the encoder and the stub take the value as an argument; only `step`, `decode`, `encode`
and `assemble` fix it. -/
def opcAddAB : Byte := 0x80

/-- sp after reset (10_state.md R45). -/
def spReset : Word := 0xFFFE

/-- pc after reset, the entry point (10_state.md R45, 20_memory.md R66). -/
def pcReset : Word := 0x0100

/-- What an address of IMEM that the host has not supplied reads as. DESIGN CHOICE: the spec gives IMEM no contents;
log 2, unsafe. -/
def unlistedByte : Byte := 0x00

/-- fault_cause after reset. DESIGN CHOICE: "unspecified" (10_state.md R45); log 4, unsafe. -/
def faultCauseReset : Nat := 0

/-- fault_pc after reset. DESIGN CHOICE: "unspecified" (10_state.md R45); log 4, unsafe. -/
def faultPcReset : Word := 0x0000

/-- fault_opcode after reset. DESIGN CHOICE: "unspecified" (10_state.md R45); log 4, unsafe. -/
def faultOpcodeReset : Byte := 0x00

end Sys2Proof.Config
end

