-- ==== Sys2Proof/Syntax.lean ====
section
/-! DEFINITION. The instructions of the block: the rows of spec/opcode_table.json, which is the whole admitted set
(00_scope.md R14). -/

namespace Sys2Proof

/-- The admitted instruction set (R14). Its operands are implicit in the opcode, so the constructor has no field (R81). -/
inductive Instr where
  /-- `ADD A, B`, the source's `add_a_b` (00_scope.md R10, 41_arithmetic.md R120). -/
  | addAB
deriving DecidableEq, Repr

end Sys2Proof
end

