-- ==== Sys2Proof/WellFormed.lean ====
section
/-! DEFINITION. Well-formedness: of instructions (no instruction of the block has an operand field, so there is nothing to
check, 30_encoding.md R81, R83) and of the opcode table, the table keyed by the opcode byte (42_dispatch_stub.md R138). -/

namespace Sys2Proof

/-- Every instruction is well formed: format OP8 has no field beside the opcode (R81). -/
def Instr.wf : Instr → Bool
  | .addAB => true

/-- One entry of the handler table: the opcode byte and the instruction it selects (30_encoding.md R88,
42_dispatch_stub.md R138). -/
structure OpcodeRow where
  opcode : Byte
  instr : Instr
deriving DecidableEq, Repr

/-- The table is a map keyed by the opcode byte: no byte selects two instructions (30_encoding.md R82). -/
def opcodesDistinct (rows : List OpcodeRow) : Bool := decide ((rows.map OpcodeRow.opcode).Nodup)

/-- An instruction has one opcode byte, so an assembler's answer is unique (30_encoding.md R82, R86). -/
def instrsDistinct (rows : List OpcodeRow) : Bool := decide ((rows.map OpcodeRow.instr).Nodup)

/-- A well-formed handler table: both checks. -/
def opcodeTableWf (rows : List OpcodeRow) : Bool := opcodesDistinct rows && instrsDistinct rows

end Sys2Proof
end

