-- ==== Sys2Proof/Decode.lean ====
section
/-! DEFINITION. The opcode table, the decoder (total on any bytes, rejecting by name) and the encoder (30_encoding.md). Each
takes `OPC_ADD_A_B` as its argument `opc` (R5, R82); `decode` and `encode` fix this hardware's value. -/

namespace Sys2Proof

/-- The handler table: one entry; a byte that is not in it is unimplemented (42_dispatch_stub.md R138, 30_encoding.md
R82). -/
def opcodeTable (opc : Byte) : List OpcodeRow := [⟨opc, .addAB⟩]

/-- The instruction an opcode byte selects (R82). -/
def lookupOpcode (opc op : Byte) : Option Instr :=
  ((opcodeTable opc).find? fun row => row.opcode == op).map OpcodeRow.instr

/-- The number of bytes of an instruction: the opcode byte alone (R80). -/
def Instr.length : Instr → Nat
  | .addAB => 1

/-- Why bytes are no instruction. -/
inductive DecodeError where
  /-- There is no byte to decode. The stub never meets it: its fetch gives one byte (20_memory.md R61). -/
  | noByte
  /-- An opcode byte other than `OPC_ADD_A_B` (R84). -/
  | unimplementedOpcode (op : Byte)
deriving DecidableEq, Repr

/-- What the decoder answers: an instruction and the bytes after it, or why there is none. -/
inductive Decoded where
  | instr (i : Instr) (rest : List Byte)
  | rejected (e : DecodeError)
deriving DecidableEq, Repr

/-- The decoder. It tells instruction and length from the first byte alone and looks at no byte after it (R80, R84,
R85). -/
def decodeWith (opc : Byte) : List Byte → Decoded
  | [] => .rejected .noByte
  | op :: rest =>
    match lookupOpcode opc op with
    | some i => .instr i rest
    | none => .rejected (.unimplementedOpcode op)

/-- The decoder of this hardware, `OPC_ADD_A_B` = 0x80 (R82). -/
def decode (bytes : List Byte) : Decoded := decodeWith Config.opcAddAB bytes

/-- The opcode byte of an instruction (R82). -/
def opcodeOf (opc : Byte) : Instr → Byte
  | .addAB => opc

/-- The encoder: format OP8, bits 7..0 the opcode (R81). -/
def encodeWith (opc : Byte) (i : Instr) : List Byte := [opcodeOf opc i]

/-- The encoder of this hardware (R82). -/
def encode (i : Instr) : List Byte := encodeWith Config.opcAddAB i

/-- `n` bytes of the number `w`, the byte of bits 7..0 first. -/
def bytesOfNat : Nat → Nat → List Byte
  | 0, _ => []
  | n + 1, w => BitVec.ofNat 8 w :: bytesOfNat n (w / 256)

/-- The bytes of an instruction whose bits are `w`, every bit above `nbits` being 0, laid out from the lowest address on:
at least the one byte of the longest instruction (R80). -/
def tableWordBytes (nbits w : Nat) : List Byte :=
  bytesOfNat (max 1 ((nbits + 7) / 8)) (w % 2 ^ nbits)

/-- The instruction the decoder reads from an instruction whose bits are `w`. -/
def decodeTableWord (nbits w : Nat) : Option Instr :=
  match decode (tableWordBytes nbits w) with
  | .instr i _ => some i
  | .rejected _ => none

end Sys2Proof
end

