-- ==== Sys2Proof/Machine/Names.lean ====
section
/-! DEFINITION. The fixed sets of names of the block: registers, register pairs, flags, phases, fault causes, ALU
operations. -/

namespace Sys2Proof.Machine

/-- The eight 8-bit registers (10_state.md R20), those `read8` reads (R24) and the host loads (60_exceptions.md R161). -/
inductive Reg8 where
  | a | f | b | c | d | e | h | l
deriving DecidableEq, Repr

/-- The seven 8-bit registers that the port `write8` takes: all but f, which only `set_flag` changes (10_state.md R25,
R37). -/
inductive GReg where
  | a | b | c | d | e | h | l
deriving DecidableEq, Repr

/-- A register of `write8` as a register of the file. -/
def GReg.toReg8 : GReg → Reg8
  | .a => .a
  | .b => .b
  | .c => .c
  | .d => .d
  | .e => .e
  | .h => .h
  | .l => .l

/-- The two 16-bit registers (10_state.md R20, R24, R25). -/
inductive Reg16 where
  | sp | pc
deriving DecidableEq, Repr

/-- The three register pairs; there is no af pair and none with sp or pc (10_state.md R28). -/
inductive Pair where
  | bc | de | hl
deriving DecidableEq, Repr

/-- The high byte of a pair: the first-named register (10_state.md R28, D10). -/
def Pair.hi : Pair → GReg
  | .bc => .b
  | .de => .d
  | .hl => .h

/-- The low byte of a pair: the second-named register (10_state.md R28, D10). -/
def Pair.lo : Pair → GReg
  | .bc => .c
  | .de => .e
  | .hl => .l

/-- The four flags: Zero, Subtraction, Half-Carry, Carry (10_state.md R34). -/
inductive FlagBit where
  | z | n | h | c
deriving DecidableEq, Repr

/-- The bit of f that holds a flag (10_state.md R34). -/
def FlagBit.bit : FlagBit → Nat
  | .z => 7
  | .n => 6
  | .h => 5
  | .c => 4

/-- The mask of a flag (10_state.md R34). -/
def FlagBit.mask : FlagBit → Byte
  | .z => 0x80
  | .n => 0x40
  | .h => 0x20
  | .c => 0x10

/-- The phases of the dispatch stub (10_state.md R41, 42_dispatch_stub.md R130). -/
inductive Phase where
  /-- RUN: the stub takes a step when invoked. -/
  | run
  /-- FAULT: the stub takes no step; only reset ends it. -/
  | fault
deriving DecidableEq, Repr

/-- The exception causes: exactly one (60_exceptions.md R151). -/
inductive FaultCause where
  /-- `UNIMPLEMENTED_OPCODE`: the byte fetched at pc is not `OPC_ADD_A_B`. -/
  | unimplementedOpcode
deriving DecidableEq, Repr

/-- The code number of a cause (60_exceptions.md R151). -/
def FaultCause.code : FaultCause → Nat
  | .unimplementedOpcode => 1

/-- The admitted ALU operations: `ADD8` only. Subtraction, compare and the 16-bit forms have no name here, so no model term
reaches them (40_alu_flag_computer.md R101, D11; log 14). -/
inductive AluOp where
  | add8
deriving DecidableEq, Repr

end Sys2Proof.Machine
end

