-- ==== Sys2Proof/Machine/State.lean ====
section
/-! DEFINITION. The state of the machine as plain data, the reasons a step can stop, and the state after reset. -/

namespace Sys2Proof.Machine

/-- The register file (10_state.md R20): eight independent 8-bit registers and two 16-bit ones. It is passed explicitly to
every handler (R21). -/
structure RegisterFile where
  a : Byte
  f : Byte
  b : Byte
  c : Byte
  d : Byte
  e : Byte
  h : Byte
  l : Byte
  sp : Word
  pc : Word
deriving DecidableEq, Repr

/-- The bytes of IMEM (20_memory.md R60) as a list of address and byte, addresses strictly rising, no entry equal to
`Config.unlistedByte` (`Memory.wf`, Machine/Ops.lean). Every total IMEM has exactly one such list. -/
abbrev Memory := List Host.Cell

/-- The state: everything 10_state.md R20 lists, and `imem`, the host's parameter IMEM, which the spec does not count as
state of the block (R20, 00_scope.md R5; log 1). -/
structure State where
  /-- register_file (R20). -/
  regs : RegisterFile
  /-- The stub's phase (R41). -/
  phase : Phase
  /-- fault_cause, a cause code (R42); meaningful only while phase is FAULT. -/
  faultCause : Nat
  /-- fault_pc, the address of the opcode byte that faulted (R42). -/
  faultPc : Word
  /-- fault_opcode, that byte (R42). -/
  faultOpcode : Byte
  /-- IMEM (20_memory.md R60). -/
  imem : Memory
deriving DecidableEq, Repr

/-- Why a step does not exist. -/
inductive Fault where
  /-- Raised by `step` in phase FAULT: the stub has no step there, nothing changes, and only reset leaves FAULT
  (42_dispatch_stub.md R135). Safe: the spec gives the machine no step here either. -/
  | noStepInFault
deriving DecidableEq, Repr

/-- Why an instruction has no meaning in the model. -/
inductive Refusal where
  /-- Raised by an arm of `exec` for an instruction without a meaning. No arm raises it: every instruction of the table has
  its meaning. Safe: the model would only stop early. -/
  | notModelled (mnemonic : String)
deriving DecidableEq, Repr

/-- The register file after reset: sp = 0xFFFE, pc = 0x0100, all else zero (10_state.md R45, R171). -/
def RegisterFile.reset : RegisterFile where
  a := 0x00
  f := 0x00
  b := 0x00
  c := 0x00
  d := 0x00
  e := 0x00
  h := 0x00
  l := 0x00
  sp := Config.spReset
  pc := Config.pcReset

/-- The machine right after reset (10_state.md R45). The fault record is unspecified there (log 4), and IMEM lists nothing
until the host supplies it (70_reset_and_hazards.md R173; logs 2, 9). -/
def State.reset : State where
  regs := RegisterFile.reset
  phase := .run
  faultCause := Config.faultCauseReset
  faultPc := Config.faultPcReset
  faultOpcode := Config.faultOpcodeReset
  imem := []

end Sys2Proof.Machine
end

