-- ==== Sys2Proof/Machine/Ops.lean ====
section
/-! DEFINITION. The named operations over IMEM, the registers and the stub's state, and taking the one fault. -/

namespace Sys2Proof.Machine

/-! ### IMEM (20_memory.md) -/

/-- The canonical form of a memory: addresses strictly rising and inside 0x0000 to 0xFFFF (R60), no entry equal to what an
unlisted address reads as. -/
abbrev Memory.wf (m : Memory) : Prop :=
  m.Pairwise (fun x y => x.1 < y.1) ∧ ∀ x ∈ m, x.1 < 2 ^ 16 ∧ x.2 ≠ Config.unlistedByte

/-- The byte at the address `k`. -/
def Memory.lookup (k : Nat) : Memory → Byte
  | [] => Config.unlistedByte
  | (x, y) :: m => if x = k then y else Memory.lookup k m

/-- `MemRead(addr, 1)`: total, without effect (R61). -/
def Memory.read (m : Memory) (addr : Word) : Byte := m.lookup addr.toNat

/-- The memory with the byte `v` at the address `k`, in canonical form. -/
def Memory.insert (k : Nat) (v : Byte) : Memory → Memory
  | [] => if v = Config.unlistedByte then [] else [(k, v)]
  | (x, y) :: m =>
    if k < x then (if v = Config.unlistedByte then (x, y) :: m else (k, v) :: (x, y) :: m)
    else if k = x then (if v = Config.unlistedByte then m else (k, v) :: m)
    else (x, y) :: Memory.insert k v m

/-- One byte placed in IMEM by the host. No component of the block writes memory (R62). -/
def Memory.place (m : Memory) (addr : Word) (v : Byte) : Memory := Memory.insert addr.toNat v m

/-- The IMEM that holds the listed bytes, a later one winning, and `Config.unlistedByte` elsewhere (R60, R62). -/
def Memory.ofCells (cells : List (Word × Byte)) : Memory :=
  cells.foldl (fun m x => m.place x.1 x.2) []

/-! ### The register file (10_state.md) -/

/-- Port `read8(r)` (R24). -/
def RegisterFile.read8 (x : RegisterFile) : Reg8 → Byte
  | .a => x.a
  | .f => x.f
  | .b => x.b
  | .c => x.c
  | .d => x.d
  | .e => x.e
  | .h => x.h
  | .l => x.l

/-- Port `read16(r)` (R24). -/
def RegisterFile.read16 (x : RegisterFile) : Reg16 → Word
  | .sp => x.sp
  | .pc => x.pc

/-- An 8-bit register replaced: the one home of every 8-bit write. -/
def RegisterFile.put8 (x : RegisterFile) (r : Reg8) (v : Byte) : RegisterFile :=
  match r with
  | .a => { x with a := v }
  | .f => { x with f := v }
  | .b => { x with b := v }
  | .c => { x with c := v }
  | .d => { x with d := v }
  | .e => { x with e := v }
  | .h => { x with h := v }
  | .l => { x with l := v }

/-- A 16-bit register replaced: the one home of every 16-bit write. -/
def RegisterFile.put16 (x : RegisterFile) (r : Reg16) (v : Word) : RegisterFile :=
  match r with
  | .sp => { x with sp := v }
  | .pc => { x with pc := v }

/-- `x[r] <- v` for an 8-bit register: `v mod 2^8` is stored (00_scope.md R9, 10_state.md R22). -/
def RegisterFile.assign8 (x : RegisterFile) (r : Reg8) (v : Nat) : RegisterFile := x.put8 r (BitVec.ofNat 8 v)

/-- `x[r] <- v` for sp or pc: `v mod 2^16` is stored (00_scope.md R9, 10_state.md R22). -/
def RegisterFile.assign16 (x : RegisterFile) (r : Reg16) (v : Nat) : RegisterFile := x.put16 r (BitVec.ofNat 16 v)

/-- Port `write8(r, v)`, for every 8-bit register but f (R25). -/
def RegisterFile.write8 (x : RegisterFile) (r : GReg) (v : Nat) : RegisterFile := x.assign8 r.toReg8 v

/-- Port `write16(r, v)` (R25). -/
def RegisterFile.write16 (x : RegisterFile) (r : Reg16) (v : Nat) : RegisterFile := x.assign16 r v

/-! ### The stub's state -/

/-- The state with another register file. -/
def State.setRegs (s : State) (x : RegisterFile) : State := { s with regs := x }

/-- The opcode byte at pc: the stub's one-byte fetch (42_dispatch_stub.md R131, 20_memory.md R61). -/
def State.fetch (s : State) : Byte := s.imem.read s.regs.pc

/-- pc advanced past `n` consumed bytes, modulo 2^16 (42_dispatch_stub.md R132, R133). -/
def State.advancePc (s : State) (n : Nat) : State :=
  s.setRegs (s.regs.write16 .pc (s.regs.pc.toNat + n))

/-- Fault entry, `raise Fault(cause, pc = p, opcode = o)`: the fault record and phase, and nothing else; pc still holds the
address of the faulting byte (60_exceptions.md R152). -/
def raiseFault (cause : FaultCause) (p : Word) (o : Byte) (s : State) : State :=
  { s with faultCause := cause.code, faultPc := p, faultOpcode := o, phase := .fault }

/-- Leaving FAULT. There is no return-from-fault instruction: only reset leaves it, which discards the fault record
(60_exceptions.md R153) and gives every state item its reset value (70_reset_and_hazards.md R170). IMEM is no state item and
stays as the host supplied it (10_state.md R20; log 8). -/
def resetBlock (s : State) : State := { State.reset with imem := s.imem }

end Sys2Proof.Machine
end

