-- ==== Sys2Proof/Machine/Flags.lean ====
section
/-! DEFINITION. The flag register (10_state.md R34 to R39) and the carries (40_alu_flag_computer.md R102). -/

namespace Sys2Proof.Machine

/-- `read_flag(X)`: `(x[f] & mask_X) != 0` (10_state.md R35). -/
def RegisterFile.readFlag (x : RegisterFile) (X : FlagBit) : Bool := (x.read8 .f &&& X.mask) != 0

/-- `set_flag(X, t)`: the only way a handler changes f (10_state.md R36, R37). -/
def RegisterFile.setFlag (x : RegisterFile) (X : FlagBit) (t : Bool) : RegisterFile :=
  if t then x.put8 .f (x.read8 .f ||| X.mask) else x.put8 .f (x.read8 .f &&& ~~~X.mask)

/-- `carry_out(x, y, k)`: the sum of the low k+1 bits carries out of bit k (40_alu_flag_computer.md R102). -/
def carryOut (x y k : Nat) : Bool := decide (x % 2 ^ (k + 1) + y % 2 ^ (k + 1) ≥ 2 ^ (k + 1))

/-- `b2n(t)` as a byte (00_scope.md R9). -/
def b2n (t : Bool) : Byte := if t then 1 else 0

/-- The flags of an operation packed into the high nibble of f (40_alu_flag_computer.md R108). -/
def packFlags (z n h cy : Bool) : Byte := b2n z <<< 7 ||| b2n n <<< 6 ||| b2n h <<< 5 ||| b2n cy <<< 4

/-- `f[3:0]`, the low nibble, which holds no flag (10_state.md R34, R38). -/
def lowNibble (v : Byte) : Byte := v &&& 0x0F

end Sys2Proof.Machine
end

