-- ==== Sys2Proof/Machine/Alu.lean ====
section
/-! DEFINITION. The ALU and flag computer: a pure function of the operation and its operands (40_alu_flag_computer.md R100,
R110). -/

namespace Sys2Proof.Machine

/-- The 5-tuple the ALU returns (R100). -/
structure AluResult where
  res : Byte
  z : Bool
  n : Bool
  h : Bool
  cy : Bool
deriving DecidableEq, Repr

/-- `ALU(ADD8, op1, op2)` (R107): the sum is computed exactly, then wrapped modulo 256 (R103); Z comes from the wrapped
result, N, H and C from the operands (R104 to R106). -/
def add8 (op1 op2 : Byte) : AluResult :=
  let sum := op1.toNat + op2.toNat
  let res := BitVec.ofNat 8 (sum % 256)
  { res := res
    z := res == 0
    n := false
    h := decide ((op1 &&& 0x0F).toNat + (op2 &&& 0x0F).toNat > 0x0F)
    cy := decide (sum > 0xFF) }

/-- `ALU(op, op1, op2)` (R100), total on its admitted operations (R101). -/
def alu (op : AluOp) (op1 op2 : Byte) : AluResult :=
  match op with
  | .add8 => add8 op1 op2

end Sys2Proof.Machine
end

