-- ==== Sys2Proof/Machine/Operands.lean ====
section
/-! DEFINITION. The operand forms: the implicit operands of format OP8 (30_encoding.md R81, R83) and the wide register
accessor (10_state.md R28 to R33). -/

namespace Sys2Proof.Machine

/-- The first operand of `ADD A, B`, and its destination: register a (41_arithmetic.md R120). -/
def RegisterFile.operandA (x : RegisterFile) : Byte := x.read8 .a

/-- The second operand of `ADD A, B`: register b (41_arithmetic.md R120). -/
def RegisterFile.operandB (x : RegisterFile) : Byte := x.read8 .b

/-- `hi : lo`, the 16-bit value `(hi << 8) | lo` (00_scope.md R9). -/
def concatBytes (hi lo : Byte) : Word := (hi.setWidth 16 <<< 8) ||| lo.setWidth 16

/-- `read_wide(p)`: a view computed from the two registers, not stored (10_state.md R30, R31). -/
def RegisterFile.readWide (x : RegisterFile) (p : Pair) : Word :=
  concatBytes (x.read8 p.hi.toReg8) (x.read8 p.lo.toReg8)

/-- `write_wide(p, v)`: a wider number is first reduced `mod 2^16`; then `x[hi] <- v >> 8` and `x[lo] <- v & 0xFF`
(10_state.md R32). -/
def RegisterFile.writeWide (x : RegisterFile) (p : Pair) (v : Nat) : RegisterFile :=
  (x.write8 p.hi ((v % 2 ^ 16) >>> 8)).write8 p.lo ((v % 2 ^ 16) &&& 0xFF)

end Sys2Proof.Machine
end

