-- ==== Sys2Proof/Machine/Arithmetic.lean ====
section
/-! DEFINITION. The arithmetic family: `ADD A, B` (41_arithmetic.md). -/

namespace Sys2Proof.Machine

/-- The handler contract's fourth point, shared by every handler: all four flags through `set_flag`, then the result into
its destination (41_arithmetic.md R120, R124). -/
def RegisterFile.commit (x : RegisterFile) (dst : GReg) (r : AluResult) : RegisterFile :=
  ((((x.setFlag .z r.z).setFlag .n r.n).setFlag .h r.h).setFlag .c r.cy).write8 dst r.res.toNat

/-- The handler `add_a_b`: a function from the register file to the register file (R120, R124). It does not touch pc. -/
def addAB (x : RegisterFile) : RegisterFile := x.commit .a (alu .add8 x.operandA x.operandB)

/-- `ADD A, B` (R120): total in every state; phase, the fault record and IMEM are unchanged. -/
def execAddAB (s : State) : Host.Outcome State Fault Refusal := .next (s.setRegs (addAB s.regs))

end Sys2Proof.Machine
end

