-- ==== Sys2Proof/Machine/Dispatch.lean ====
section
/-! DEFINITION. One arm per instruction of the table: the handler table of 42_dispatch_stub.md R138. -/

namespace Sys2Proof.Machine

def exec (i : Instr) (s : State) : Host.Outcome State Fault Refusal :=
  match i with
  | .addAB => Sys2Proof.Machine.execAddAB s

end Sys2Proof.Machine
end

