-- ==== Sys2Proof/Machine/Stub.lean ====
section
/-! DEFINITION. The instruction state machine: the dispatch stub (42_dispatch_stub.md). -/

namespace Sys2Proof.Machine

/-- One run of the stub from phase RUN (R131): fetch one byte; if it selects an instruction, advance pc past it (R132) and
run its handler, else raise the unimplemented-opcode fault, which is a NEXT state in phase FAULT (60_exceptions.md R152;
log 6). -/
def runPhaseStep (opc : Byte) (s : State) : Host.Outcome State Fault Refusal :=
  match decodeWith opc [s.fetch] with
  | .instr i _ => exec i (s.advancePc i.length)
  | .rejected _ => .next (raiseFault .unimplementedOpcode s.regs.pc s.fetch s)

/-- The stub invoked once (R130). In phase FAULT it has no step (R135; log 7). -/
def stubStep (opc : Byte) (s : State) : Host.Outcome State Fault Refusal :=
  match s.phase with
  | .run => runPhaseStep opc s
  | .fault => .fault .noStepInFault

/-- The state with the bytes of the instruction whose bits are `w` (its first byte, the longest instruction being one byte,
30_encoding.md R80) at pc, in phase RUN, the only phase that fetches (log 9). -/
def placeAtPc (s : State) (nbits w : Nat) : State :=
  { s with
    imem := s.imem.place s.regs.pc ((tableWordBytes nbits w).headD Config.unlistedByte)
    phase := .run }

end Sys2Proof.Machine
end

