-- ==== Sys2Proof/Machine/Step.lean ====
section
/-! DEFINITION. One step of the machine, with this hardware's `OPC_ADD_A_B` (00_scope.md R5, R6). -/

namespace Sys2Proof.Machine

/-- One step: one run of the dispatch stub (00_scope.md R6, 42_dispatch_stub.md R131). -/
def step (s : State) : Host.Outcome State Fault Refusal := stubStep Config.opcAddAB s

/-- `s` with the instruction whose bits are `w` where the next step fetches (log 9). -/
def State.withFetchWord (s : State) (nbits w : Nat) : State := placeAtPc s nbits w

end Sys2Proof.Machine
end

