-- ==== Sys2Proof/Machine/Assembler.lean ====
section
/-! DEFINITION. The assembler's syntax (30_encoding.md R86, R87) on one line of text, a list of characters (log 12). -/

namespace Sys2Proof.Machine

/-- One assembled line: an instruction or a data byte (R86, R87). -/
inductive AsmItem where
  | instr (i : Instr)
  | data (v : Byte)
deriving DecidableEq, Repr

/-- `add_a_b`, the synonym (R86). -/
def synonymAddAB : List Char := ['a', 'd', 'd', '_', 'a', '_', 'b']

/-- `ADD `, the mnemonic and one space (R86). -/
def mnemonicAdd : List Char := ['A', 'D', 'D', ' ']

/-- `.byte 0x` (R87). -/
def directiveByte : List Char := ['.', 'b', 'y', 't', 'e', ' ', '0', 'x']

/-- The value of a hexadecimal digit, in either case. -/
def hexDigit (ch : Char) : Option Nat :=
  if '0'.toNat ≤ ch.toNat ∧ ch.toNat ≤ '9'.toNat then some (ch.toNat - '0'.toNat)
  else if 'A'.toNat ≤ ch.toNat ∧ ch.toNat ≤ 'F'.toNat then some (ch.toNat - 'A'.toNat + 10)
  else if 'a'.toNat ≤ ch.toNat ∧ ch.toNat ≤ 'f'.toNat then some (ch.toNat - 'a'.toNat + 10)
  else none

/-- The operands `A, B`, register names in either case (R86). -/
def isOperandsAB (src : List Char) : Bool :=
  match src with
  | [x, ',', ' ', y] => (x == 'A' || x == 'a') && (y == 'B' || y == 'b')
  | _ => false

/-- A line that spells `ADD A, B` (R86). -/
def spellsAddAB (src : List Char) : Bool :=
  src == synonymAddAB || (src.take 4 == mnemonicAdd && isOperandsAB (src.drop 4))

/-- The byte of a line `.byte 0xNN` (R87). -/
def dataByte (src : List Char) : Option Byte :=
  if src.take 8 == directiveByte then
    match src.drop 8 with
    | [x, y] =>
      match hexDigit x, hexDigit y with
      | some p, some q => some (BitVec.ofNat 8 (16 * p + q))
      | _, _ => none
    | _ => none
  else none

/-- The item of a line. `.byte` writes only a byte other than `OPC_ADD_A_B` (R87); there are no pseudo-instructions (R86). -/
def parseLine (opc : Byte) (src : List Char) : Option AsmItem :=
  if spellsAddAB src then some (.instr .addAB)
  else match dataByte src with
    | some v => if v = opc then none else some (.data v)
    | none => none

/-- The bytes an item stands for: `ADD A, B` emits `OPC_ADD_A_B` (R86). -/
def AsmItem.emit (opc : Byte) : AsmItem → List Byte
  | .instr i => encodeWith opc i
  | .data v => [v]

/-- The assembler of this hardware on one line. -/
def assemble (src : List Char) : Option (List Byte) :=
  (parseLine Config.opcAddAB src).map (AsmItem.emit Config.opcAddAB)

end Sys2Proof.Machine
end

