-- ==== Sys2Proof/Machine/HostMoves.lean ====
section
/-! DEFINITION. The host interface: every interaction of 60_exceptions.md R161, each between two steps (R162; log 10), the
boot sequence (70_reset_and_hazards.md R173), and several independent blocks (20_memory.md R72). -/

namespace Sys2Proof.Machine

/-- What the host may read: all of the state of 10_state.md R20 and its views (R44, 60_exceptions.md R161). -/
inductive Query where
  | reg8 (r : Reg8)
  | reg16 (r : Reg16)
  | wide (p : Pair)
  | flag (X : FlagBit)
  | phase
  | faultCause
  | faultPc
  | faultOpcode
deriving DecidableEq, Repr

/-- What a read gives. -/
inductive Reading where
  | byte (v : Byte)
  | word (v : Word)
  | truth (t : Bool)
  | phaseIs (p : Phase)
  | code (n : Nat)
deriving DecidableEq, Repr

/-- "read state": no effect (R161). -/
def observe (q : Query) (s : State) : Reading :=
  match q with
  | .reg8 r => .byte (s.regs.read8 r)
  | .reg16 r => .word (s.regs.read16 r)
  | .wide p => .word (s.regs.readWide p)
  | .flag X => .truth (s.regs.readFlag X)
  | .phase => .phaseIs s.phase
  | .faultCause => .code s.faultCause
  | .faultPc => .word s.faultPc
  | .faultOpcode => .byte s.faultOpcode

/-- "load register", an 8-bit one, f among them with any value (R161, 10_state.md R25, R38): only that register changes. -/
def hostLoad8 (r : Reg8) (v : Nat) (s : State) : State := s.setRegs (s.regs.assign8 r v)

/-- "load register", sp or pc (R161): only that register changes. -/
def hostLoad16 (r : Reg16) (v : Nat) (s : State) : State := s.setRegs (s.regs.assign16 r v)

/-- "supply IMEM": the bytes of a run; no effect on the block's state (R161). A change starts a new run (20_memory.md R62). -/
def supplyImem (cells : List (Word × Byte)) (s : State) : State := { s with imem := Memory.ofCells cells }

/-- "step": the state after the host invokes one step; nothing changes where there is none (R161, 42_dispatch_stub.md
R135). -/
def hostStep (s : State) : State :=
  match step s with
  | .next t => t
  | .fault _ => s
  | .refused _ => s

/-- The host's moves: it has no other (R161, R162). -/
inductive HostMove where
  | reset
  | supply (cells : List (Word × Byte))
  | load8 (r : Reg8) (v : Nat)
  | load16 (r : Reg16) (v : Nat)
  | read (q : Query)
  | step
deriving DecidableEq, Repr

/-- The state after a move of the host (R161). -/
def applyMove (m : HostMove) (s : State) : State :=
  match m with
  | .reset => resetBlock s
  | .supply cells => supplyImem cells s
  | .load8 r v => hostLoad8 r v s
  | .load16 r v => hostLoad16 r v s
  | .read _ => s
  | .step => hostStep s

/-- The start of a run: reset, then IMEM, then the loads in their order (70_reset_and_hazards.md R173,
42_dispatch_stub.md R137). -/
def boot (cells : List (Word × Byte)) (loads : List ((Reg8 ⊕ Reg16) × Nat)) : State :=
  loads.foldl
    (fun s x => match x.1 with
      | .inl r => hostLoad8 r x.2 s
      | .inr r => hostLoad16 r x.2 s)
    (supplyImem cells State.reset)

/-- A move of the host on the `k`-th of several emulated CPUs. Each owns its own block; the others do not change
(10_state.md R21, 60_exceptions.md R158; log 13). -/
def applyMoveAt (k : Nat) (m : HostMove) (cpus : List State) : List State := cpus.modify k (applyMove m)

end Sys2Proof.Machine
end

