-- ==== Sys2Proof/Safety.lean ====
section
/-! DEFINITION. What a safe run is, and the properties the statements speak of. -/

namespace Sys2Proof

open Sys2Proof.Machine

/-- The state after exactly `n` steps, or why there are fewer: how a run is observed (42_dispatch_stub.md R137). -/
def runFor (n : Nat) (s : State) : Host.Outcome State Fault Refusal := core.run n s

/-- A run from `s` that has taken `n` steps without reaching FAULT: the only clean observation there is
(42_dispatch_stub.md R137). -/
def CleanFor (n : Nat) (s : State) : Prop := ∃ t : State, runFor n s = .next t ∧ t.phase = .run

/-- While phase is FAULT the record holds the one cause and a byte that is no opcode of the block (10_state.md R42,
60_exceptions.md R151). In RUN nothing is asked of it (R42). -/
def FaultRecordSound (s : State) : Prop :=
  s.phase = .fault → s.faultCause = 1 ∧ s.faultOpcode ≠ Config.opcAddAB

/-- The invariant of the stub: IMEM is in its canonical form, and in FAULT the record says which byte stopped the run and
where, with pc still there (60_exceptions.md R152). -/
def StubInv (s : State) : Prop :=
  s.imem.wf ∧ FaultRecordSound s ∧ (s.phase = .fault → s.faultPc = s.regs.pc ∧ s.faultOpcode = s.imem.read s.regs.pc)

/-- The states that the host's moves reach from reset (60_exceptions.md R161). -/
inductive Reachable : State → Prop
  | reset : Reachable State.reset
  | move (m : HostMove) (s : State) (reached : Reachable s) : Reachable (applyMove m s)

end Sys2Proof
end

