-- ==== Sys2Proof/Certificates/Slice0/Obligations.lean ====
section
/-! DEFINITION. The statements for the provers. Each docstring names the rules of spec/ it rests on; where those rules are
the spec's own decisions or inferences (marked there D<n> or "derived"), or a choice of the model (log <n>), it says so. -/

open Sys2Proof Sys2Proof.Machine

/-! ### Reset and the host's moves -/

/-- 70_reset_and_hazards.md R171: a new register file holds sp = 0xFFFE, pc = 0x0100 and zero in every other register. The
clauses on the four flags, the low nibble of f and the wide views are the rule's second sentence, "It follows that after reset
all four flags read false, ...", which the spec marks as its own inference. -/
def Obligations.ResetInvariant : Prop :=
  State.reset.regs.sp = 0xFFFE ∧ State.reset.regs.pc = 0x0100 ∧
  (∀ r, State.reset.regs.read8 r = 0x00) ∧
  (∀ X, State.reset.regs.readFlag X = false) ∧ lowNibble State.reset.regs.f = 0x00 ∧
  ∀ p, State.reset.regs.readWide p = 0x0000

/-- 70_reset_and_hazards.md R170, 60_exceptions.md R153 (the spec's decisions D5, D13): from any state, in FAULT too, reset
gives every register its reset value and phase RUN, whatever the host loaded before; that IMEM stays is the model's reading
(log 8). Nothing is said of the fault record, which is unspecified in RUN (10_state.md R42). -/
def Obligations.HostResetFromAnyState : Prop :=
  ∀ s : State,
    (applyMove .reset s).regs.sp = 0xFFFE ∧ (applyMove .reset s).regs.pc = 0x0100 ∧
    (∀ r, (applyMove .reset s).regs.read8 r = 0x00) ∧
    (applyMove .reset s).phase = .run ∧ (applyMove .reset s).imem = s.imem ∧
    (∀ r v, applyMove .reset (applyMove (.load8 r v) s) = applyMove .reset s) ∧
    ∀ r v, applyMove .reset (applyMove (.load16 r v) s) = applyMove .reset s

/-- 10_state.md R41, 60_exceptions.md R153 (the spec's decision D5): of all the host's moves in FAULT, exactly reset leads
back to RUN. -/
def Obligations.OnlyResetLeavesFault : Prop :=
  ∀ (m : HostMove) (s : State), s.phase = .fault → ((applyMove m s).phase = .run ↔ m = .reset)

/-- 10_state.md R41, 42_dispatch_stub.md R130 (the spec's decisions D3, D5): of all moves in RUN, exactly a step on a byte
other than `OPC_ADD_A_B` leads to FAULT. -/
def Obligations.OnlyUnimplementedByteEntersFault : Prop :=
  ∀ (m : HostMove) (s : State), s.phase = .run →
    ((applyMove m s).phase = .fault ↔ m = .step ∧ s.imem.read s.regs.pc ≠ Config.opcAddAB)

/-- 60_exceptions.md R161 (the spec's decisions D8, D9): a host load stores the value modulo the register's width, f with any
value, and changes that register alone. -/
def Obligations.HostLoadChangesOnlyThatRegister : Prop :=
  (∀ (r : Reg8) (v : Nat) (s : State),
    ((applyMove (.load8 r v) s).regs.read8 r).toNat = v % 2 ^ 8 ∧
    (∀ r', r' ≠ r → (applyMove (.load8 r v) s).regs.read8 r' = s.regs.read8 r') ∧
    (∀ r', (applyMove (.load8 r v) s).regs.read16 r' = s.regs.read16 r') ∧
    applyMove (.load8 r v) s = { s with regs := (applyMove (.load8 r v) s).regs }) ∧
  ∀ (r : Reg16) (v : Nat) (s : State),
    ((applyMove (.load16 r v) s).regs.read16 r).toNat = v % 2 ^ 16 ∧
    (∀ r', (applyMove (.load16 r v) s).regs.read8 r' = s.regs.read8 r') ∧
    (∀ r', r' ≠ r → (applyMove (.load16 r v) s).regs.read16 r' = s.regs.read16 r') ∧
    applyMove (.load16 r v) s = { s with regs := (applyMove (.load16 r v) s).regs }

/-- 60_exceptions.md R161 (the spec's decision D2): supplying IMEM changes nothing of the block's state, and the bytes supplied
are read. That IMEM is a list in canonical form, and that of two bytes listed at one address the later wins, is the model's
representation of the parameter (log 1, DESIGN CHOICE). -/
def Obligations.SupplyImemLeavesTheBlock : Prop :=
  ∀ (cells : List (Word × Byte)) (s : State),
    applyMove (.supply cells) s = { s with imem := Memory.ofCells cells } ∧
    (applyMove (.supply cells) s).imem.wf ∧
    ∀ (k : Word) (v : Byte) (k' : Word), (applyMove (.supply (cells ++ [(k, v)])) s).imem.read k' =
      if k' = k then v else (applyMove (.supply cells) s).imem.read k'

/-- 70_reset_and_hazards.md R173 (the spec's decision D17): a run starts in RUN with the IMEM supplied; the last load of each
register is what it holds, whatever loads of other registers follow it, and registers not loaded hold their reset values. -/
def Obligations.BootHoldsTheLastLoads : Prop :=
  (∀ (cells : List (Word × Byte)) (loads : List ((Reg8 ⊕ Reg16) × Nat)),
    (boot cells loads).phase = .run ∧ (boot cells loads).imem = Memory.ofCells cells ∧
    (∀ r, (∀ x ∈ loads, x.1 ≠ .inl r) → (boot cells loads).regs.read8 r = State.reset.regs.read8 r) ∧
    ∀ r, (∀ x ∈ loads, x.1 ≠ .inr r) → (boot cells loads).regs.read16 r = State.reset.regs.read16 r) ∧
  ∀ (cells : List (Word × Byte)) (pre post : List ((Reg8 ⊕ Reg16) × Nat)) (v : Nat),
    (∀ r, (∀ x ∈ post, x.1 ≠ .inl r) →
      ((boot cells (pre ++ (.inl r, v) :: post)).regs.read8 r).toNat = v % 2 ^ 8) ∧
    ∀ r, (∀ x ∈ post, x.1 ≠ .inr r) →
      ((boot cells (pre ++ (.inr r, v) :: post)).regs.read16 r).toNat = v % 2 ^ 16

/-- 70_reset_and_hazards.md R172, 41_arithmetic.md R123 (the spec's inferences), 42_dispatch_stub.md R131, R132 (its decision
D3), 60_exceptions.md R151, R152 (its decisions D5, D22): the first fetch after boot is at 0x0100; on 0x80 there (the opcode
value: the spec's decision D4; log 3, PRESUMED) the step leaves a = 0x00, f = 0x80, pc = 0x0101, phase RUN; on any other byte
it is the fault at 0x0100, which the model holds as a next state in phase FAULT (log 6, DEDUCED). -/
def Obligations.FirstStepAfterBoot : Prop :=
  ∀ cells : List (Word × Byte), ∃ t, step (boot cells []) = .next t ∧
    if (Memory.ofCells cells).read 0x0100 = 0x80 then
      t = { boot cells [] with regs := { RegisterFile.reset with a := 0x00, f := 0x80, pc := 0x0101 } }
    else
      t.regs = RegisterFile.reset ∧ t.phase = .fault ∧ t.faultCause = 1 ∧ t.faultPc = 0x0100 ∧
      t.faultOpcode = (Memory.ofCells cells).read 0x0100

/-- 10_state.md R21, 60_exceptions.md R158, as the model holds several blocks (log 13): a move on one emulated CPU is that
move on it, leaves every other as it was, and moves on two CPUs commute. -/
def Obligations.InstancesAreIndependent : Prop :=
  ∀ (k j : Nat) (m m' : HostMove) (cpus : List State),
    (applyMoveAt k m cpus)[k]? = (cpus[k]?).map (applyMove m) ∧
    (j ≠ k → (applyMoveAt k m cpus)[j]? = cpus[j]? ∧
      applyMoveAt j m' (applyMoveAt k m cpus) = applyMoveAt k m (applyMoveAt j m' cpus))

/-! ### Register file and wide register accessor -/

/-- 10_state.md R22, with the ports of R25: a write stores `v mod 2^8` in an 8-bit register and `v mod 2^16` in sp or pc, the
ports change no other register, and every value read is within its width. -/
def Obligations.WritesTruncateToWidth : Prop :=
  ∀ x : RegisterFile,
    (∀ (r : Reg8) (v : Nat), ((x.assign8 r v).read8 r).toNat = v % 2 ^ 8) ∧
    (∀ (r : Reg16) (v : Nat), ((x.assign16 r v).read16 r).toNat = v % 2 ^ 16) ∧
    (∀ (r : GReg) (v : Nat), ((x.write8 r v).read8 r.toReg8).toNat = v % 2 ^ 8 ∧
      (∀ r', r' ≠ r.toReg8 → (x.write8 r v).read8 r' = x.read8 r') ∧
      ∀ r', (x.write8 r v).read16 r' = x.read16 r') ∧
    (∀ (r : Reg16) (v : Nat), ((x.write16 r v).read16 r).toNat = v % 2 ^ 16 ∧
      (∀ r', (x.write16 r v).read8 r' = x.read8 r') ∧
      ∀ r', r' ≠ r → (x.write16 r v).read16 r' = x.read16 r') ∧
    (∀ r, (x.read8 r).toNat < 2 ^ 8) ∧ ∀ r, (x.read16 r).toNat < 2 ^ 16

/-- 10_state.md R30: `read_wide(p)` is `(x[hi] << 8) | x[lo]`, the high byte counting 256 times; it has no side effect. -/
def Obligations.ReadWideIsHighThenLow : Prop :=
  ∀ (s : State) (p : Pair),
    (s.regs.readWide p).toNat = (s.regs.read8 p.hi.toReg8).toNat <<< 8 ||| (s.regs.read8 p.lo.toReg8).toNat ∧
    (s.regs.readWide p).toNat = 256 * (s.regs.read8 p.hi.toReg8).toNat + (s.regs.read8 p.lo.toReg8).toNat ∧
    observe (.wide p) s = .word (s.regs.readWide p) ∧ applyMove (.read (.wide p)) s = s

/-- 10_state.md R28 (the pairs bc and de are the spec's decision D10): b, d and h are the high bytes, c, e and l the low
ones. -/
def Obligations.PairsNameHighByteFirst : Prop :=
  ∀ x : RegisterFile,
    (x.readWide .bc).toNat = 256 * x.b.toNat + x.c.toNat ∧
    (x.readWide .de).toNat = 256 * x.d.toNat + x.e.toNat ∧
    (x.readWide .hl).toNat = 256 * x.h.toNat + x.l.toNat

/-- 10_state.md R31: the wide view is derived from the registers as they stand, so a `write8` to either byte of a pair is
visible at once, and a write to any other register is not seen. -/
def Obligations.WideViewFollowsByteWrites : Prop :=
  ∀ (x : RegisterFile) (p : Pair) (r : GReg) (v : Nat),
    ((x.write8 r v).readWide p).toNat =
      256 * (if r = p.hi then v % 256 else (x.read8 p.hi.toReg8).toNat) +
        (if r = p.lo then v % 256 else (x.read8 p.lo.toReg8).toNat)

/-- 10_state.md R32: `write_wide` splits the value, reduced modulo 2^16, into high and low byte, and changes no other
register. -/
def Obligations.WriteWideSplitsTheValue : Prop :=
  ∀ (x : RegisterFile) (p : Pair) (v : Nat),
    ((x.writeWide p v).read8 p.hi.toReg8).toNat = (v % 65536) / 256 ∧
    ((x.writeWide p v).read8 p.lo.toReg8).toNat = v % 256 ∧
    (∀ r, r ≠ p.hi.toReg8 → r ≠ p.lo.toReg8 → (x.writeWide p v).read8 r = x.read8 r) ∧
    ∀ r, (x.writeWide p v).read16 r = x.read16 r

/-- 10_state.md R33 (the converse is the spec's inference): reading a pair after writing it gives the value, and writing what
was read changes nothing. -/
def Obligations.WideRoundTrips : Prop :=
  ∀ (x : RegisterFile) (p : Pair),
    (∀ v : Word, (x.writeWide p v.toNat).readWide p = v) ∧ x.writeWide p (x.readWide p).toNat = x

/-! ### Flag register -/

/-- 10_state.md R34, R35: Z, N, H, C are bits 7, 6, 5, 4 of f, each mask is `1 << bit`, `read_flag` tests the mask, and bits
3..0 hold no flag. -/
def Obligations.FlagLayout : Prop :=
  ∀ x : RegisterFile,
    (x.readFlag .z = x.f.getLsbD 7 ∧ x.readFlag .n = x.f.getLsbD 6 ∧
      x.readFlag .h = x.f.getLsbD 5 ∧ x.readFlag .c = x.f.getLsbD 4) ∧
    (FlagBit.mask .z = 0x80 ∧ FlagBit.mask .n = 0x40 ∧ FlagBit.mask .h = 0x20 ∧ FlagBit.mask .c = 0x10) ∧
    (∀ X : FlagBit, X.mask.toNat = 1 <<< X.bit ∧ (x.readFlag X = true ↔ x.f &&& X.mask ≠ 0)) ∧
    ∀ (X : FlagBit) (v : Byte), (x.put8 .f (x.f ^^^ lowNibble v)).readFlag X = x.readFlag X

/-- 10_state.md R36: `set_flag` makes its own bit of f equal to `t` and changes no other bit of f and no other register. That
it leaves f as it is where the flag already equals `t` is the rule's last sentence, "Setting a flag that is already set, or
clearing one that is already clear, leaves f unchanged", which the spec marks as its own inference. -/
def Obligations.SetFlagWritesOneBit : Prop :=
  ∀ (x : RegisterFile) (X : FlagBit) (t : Bool),
    (∀ i, i < 8 → (x.setFlag X t).f.getLsbD i = if i = X.bit then t else x.f.getLsbD i) ∧
    (∀ r, r ≠ .f → (x.setFlag X t).read8 r = x.read8 r) ∧
    (∀ r, (x.setFlag X t).read16 r = x.read16 r) ∧
    (x.readFlag X = t → x.setFlag X t = x)

/-- 10_state.md R39 (the spec's inference): after `set_flag(X, t)` the flag reads `t`, the other three flags and the low
nibble read as before, and writes of different flags commute. -/
def Obligations.FlagsAreIndependent : Prop :=
  ∀ (x : RegisterFile) (X : FlagBit) (t : Bool),
    (x.setFlag X t).readFlag X = t ∧ lowNibble (x.setFlag X t).f = lowNibble x.f ∧
    ∀ (Y : FlagBit) (u : Bool), Y ≠ X →
      (x.setFlag X t).readFlag Y = x.readFlag Y ∧ (x.setFlag X t).setFlag Y u = (x.setFlag Y u).setFlag X t

/-- 10_state.md R40: the instructions write all four flags, so the flags after one do not depend on f before it; no
instruction reads a flag, so nothing else does either; the host reads any flag through f. -/
def Obligations.FlagsAreWrittenAndNeverRead : Prop :=
  (∀ (i : Instr) (s : State) (v : Byte), ∃ t u,
    exec i s = .next t ∧ exec i { s with regs := { s.regs with f := v } } = .next u ∧
    (∀ X, u.regs.readFlag X = t.regs.readFlag X) ∧ lowNibble u.regs.f = lowNibble v ∧
    { u with regs := { u.regs with f := t.regs.f } } = t) ∧
  ∀ (s : State) (X : FlagBit), observe (.flag X) s = .truth (s.regs.f.getLsbD X.bit) ∧ applyMove (.read (.flag X)) s = s

/-! ### ALU and flag computer -/

/-- 40_alu_flag_computer.md R104, R105, R107: the result is the exact sum modulo 256; Z iff the wrapped result is 0; N false;
H and C from the operands. -/
def Obligations.Add8ResultAndFlags : Prop :=
  ∀ (op : AluOp) (x y : Byte),
    (alu op x y).res.toNat = (x.toNat + y.toNat) % 256 ∧
    ((alu op x y).z = true ↔ (x.toNat + y.toNat) % 256 = 0) ∧
    (alu op x y).n = false ∧
    ((alu op x y).h = true ↔ (x &&& 0x0F).toNat + (y &&& 0x0F).toNat > 0x0F) ∧
    ((alu op x y).cy = true ↔ x.toNat + y.toNat > 0xFF)

/-- 40_alu_flag_computer.md R111: the five rows of the source's addition table (95_test_vectors.md section 1.1). -/
def Obligations.AdditionTableRows : Prop :=
  alu .add8 0x00 0x00 = { res := 0x00, z := true, n := false, h := false, cy := false } ∧
  alu .add8 0x0F 0x01 = { res := 0x10, z := false, n := false, h := true, cy := false } ∧
  alu .add8 0xFF 0x01 = { res := 0x00, z := true, n := false, h := true, cy := true } ∧
  alu .add8 0x80 0x80 = { res := 0x00, z := true, n := false, h := false, cy := true } ∧
  alu .add8 0x12 0x03 = { res := 0x15, z := false, n := false, h := false, cy := false }

/-- 40_alu_flag_computer.md R102 (the spec's inference): H is the carry out of bit 3 and C the carry out of bit 7, where the
carry out of bit k is what the sum of the operands carries into bit k+1. -/
def Obligations.FlagsAreCarriesOut : Prop :=
  (∀ x y : Byte, (alu .add8 x y).h = carryOut x.toNat y.toNat 3 ∧ (alu .add8 x y).cy = carryOut x.toNat y.toNat 7) ∧
  ∀ x y k : Nat, (x + y).testBit (k + 1) = ((x.testBit (k + 1) ^^ y.testBit (k + 1)) ^^ carryOut x y k)

/-- 40_alu_flag_computer.md R108 (the spec's inference): the packed flags of `ADD8` are one of seven values, and each of
these occurs. -/
def Obligations.Add8FlagNibbles : Prop :=
  ∀ v : Byte,
    (∃ x y, packFlags (alu .add8 x y).z (alu .add8 x y).n (alu .add8 x y).h (alu .add8 x y).cy = v) ↔
    v ∈ ([0x00, 0x10, 0x20, 0x30, 0x80, 0x90, 0xB0] : List Byte)

/-- 40_alu_flag_computer.md R109 (the spec's inference): the laws of `ADD8`. -/
def Obligations.Add8Laws : Prop :=
  (∀ x y : Byte,
    alu .add8 x y = alu .add8 y x ∧
    ((alu .add8 x y).cy = true ↔ (alu .add8 x y).res.toNat < x.toNat) ∧
    ((alu .add8 x y).cy = true ↔ (alu .add8 x y).res.toNat < y.toNat) ∧
    ((alu .add8 x y).z = true ∧ (alu .add8 x y).cy = false ↔ x = 0 ∧ y = 0) ∧
    ((alu .add8 x y).z = true ∧ (alu .add8 x y).cy = true ↔ x.toNat + y.toNat = 256) ∧
    alu .add8 x 0 = { res := x, z := x == 0, n := false, h := false, cy := false } ∧
    ∀ x' y' : Byte, lowNibble x' = lowNibble x → lowNibble y' = lowNibble y →
      (alu .add8 x' y').h = (alu .add8 x y).h) ∧
  ∀ i : Nat, i < 8 →
    (∃ x y : Byte, (alu .add8 (x ^^^ BitVec.twoPow 8 i) y).cy ≠ (alu .add8 x y).cy) ∧
    ∃ x y : Byte, (alu .add8 x (y ^^^ BitVec.twoPow 8 i)).cy ≠ (alu .add8 x y).cy

/-! ### ADD A, B -/

/-- 41_arithmetic.md R120: one opcode byte and no other encodes `ADD A, B`; in every state it completes: a becomes the wrapped
sum, Z, N, H and C are as the rule gives them, and every other register, the low nibble of f, phase, the fault record and
every byte of IMEM are unchanged. -/
def Obligations.AddABCompletes : Prop :=
  (∀ opc : Byte, encodeWith opc .addAB = [opc]) ∧
  ∀ s : State, ∃ t, exec .addAB s = .next t ∧
    t.regs.a.toNat = (s.regs.a.toNat + s.regs.b.toNat) % 256 ∧
    (t.regs.readFlag .z = true ↔ t.regs.a = 0) ∧
    t.regs.readFlag .n = false ∧
    (t.regs.readFlag .h = true ↔ (s.regs.a &&& 0x0F).toNat + (s.regs.b &&& 0x0F).toNat > 0x0F) ∧
    (t.regs.readFlag .c = true ↔ s.regs.a.toNat + s.regs.b.toNat > 0xFF) ∧
    lowNibble t.regs.f = lowNibble s.regs.f ∧
    (∀ r, r ≠ .a → r ≠ .f → t.regs.read8 r = s.regs.read8 r) ∧
    (∀ r, t.regs.read16 r = s.regs.read16 r) ∧
    t.phase = s.phase ∧ t.faultCause = s.faultCause ∧ t.faultPc = s.faultPc ∧ t.faultOpcode = s.faultOpcode ∧
    ∀ k : Word, t.imem.read k = s.imem.read k

/-- 41_arithmetic.md R121, R122 (the spec's inferences): the whole effect of `ADD A, B` as one update of a and f. -/
def Obligations.AddABClosedForm : Prop :=
  ∀ s : State, exec .addAB s = .next { s with regs := { s.regs with
    a := s.regs.a + s.regs.b
    f := (s.regs.f &&& 0x0F) |||
      packFlags (s.regs.a + s.regs.b == 0) false (carryOut s.regs.a.toNat s.regs.b.toNat 3)
        (carryOut s.regs.a.toNat s.regs.b.toNat 7) } }

/-- 41_arithmetic.md R122, 42_dispatch_stub.md R134 (the spec's inferences): writing the result before the flags, or
advancing pc after the handler, gives the same state. -/
def Obligations.OrderInsideAStepIsUnobservable : Prop :=
  (∀ (x : RegisterFile) (dst : GReg) (r : AluResult),
    ((((x.write8 dst r.res.toNat).setFlag .z r.z).setFlag .n r.n).setFlag .h r.h).setFlag .c r.cy = x.commit dst r) ∧
  ∀ (i : Instr) (n : Nat) (s : State), ∃ t, exec i s = .next t ∧ exec i (s.advancePc n) = .next (t.advancePc n)

/-- 41_arithmetic.md R124, the handler contract: every handler is total; it computes the wrapped result of an ALU operation on
operands read before any write, writes f through the four `set_flag` calls alone and commits the result to one register; it
touches neither pc nor sp nor anything outside the register file. -/
def Obligations.HandlersMeetTheContract : Prop :=
  ∀ i : Instr, ∃ (op : AluOp) (src1 src2 : Reg8) (dst : GReg), ∀ s : State, ∃ t, exec i s = .next t ∧
    (let r := alu op (s.regs.read8 src1) (s.regs.read8 src2)
     t.regs.f = ((((s.regs.setFlag .z r.z).setFlag .n r.n).setFlag .h r.h).setFlag .c r.cy).f ∧
     t.regs.read8 dst.toReg8 = r.res) ∧
    (∀ r', r' ≠ dst.toReg8 → r' ≠ .f → t.regs.read8 r' = s.regs.read8 r') ∧
    (∀ r', t.regs.read16 r' = s.regs.read16 r') ∧ t = { s with regs := t.regs }

/-! ### Encoding -/

/-- 00_scope.md R14, 42_dispatch_stub.md R138, for every value of the parameter: the handler table has one entry, and no
instruction is refused or faults. That the decoder gives `ADD A, B` on that byte and names every other byte unimplemented,
whatever follows, is 30_encoding.md R84, R85 (the spec's decisions D5, D21; log 11, DEDUCED); that the stub takes every other
byte to a next state in FAULT is 42_dispatch_stub.md R131 (the spec's decisions D3, D5; log 6, DEDUCED). -/
def Obligations.AdmittedSetIsTheTable : Prop :=
  ∀ opc : Byte,
    opcodeTableWf (opcodeTable opc) = true ∧ (opcodeTable opc).length = 1 ∧
    (∀ (op : Byte) (rest : List Byte), decodeWith opc (op :: rest) =
      if op = opc then .instr .addAB rest else .rejected (.unimplementedOpcode op)) ∧
    (∀ (i : Instr) (s : State), ∃ t, exec i s = .next t) ∧
    ∀ s : State, s.phase = .run → s.imem.read s.regs.pc ≠ opc → ∃ t, stubStep opc s = .next t ∧ t.phase = .fault

/-- 30_encoding.md R80 to R82 (the spec's decisions D3, D4), for every value of the parameter: decoding what the encoder gives,
whatever follows it, gives back the instruction and the rest; and bytes decode to an instruction only if they begin with its
encoding. -/
def Obligations.DecodeEncodeAgree : Prop :=
  ∀ (opc : Byte) (bytes rest : List Byte) (i : Instr),
    decodeWith opc bytes = .instr i rest ↔ i.wf = true ∧ bytes = encodeWith opc i ++ rest

/-- 30_encoding.md R82, R84, R85 (the spec's decisions D4, D5, D21): words written out from the encoding. -/
def Obligations.WordsDecodeAsTheTableSays : Prop :=
  decode [0b10000000] = .instr .addAB [] ∧ decodeTableWord 8 0b10000000 = some .addAB ∧
  decode [0b10000001] = .rejected (.unimplementedOpcode 0x81) ∧
  decode [0b00000000] = .rejected (.unimplementedOpcode 0x00) ∧
  decode [0b01110110] = .rejected (.unimplementedOpcode 0x76) ∧
  decode [0b11001011, 0b10000000] = .rejected (.unimplementedOpcode 0xCB)

/-- 30_encoding.md R86, R87 (the spec's decision D20; the corners of the spelling, `.byte` of the opcode refused among them, are
the model's choice, log 12, DESIGN CHOICE; the value 0x80 is the spec's decision D4, log 3, PRESUMED): a line assembles to the
opcode iff it is one of the spellings of `ADD A, B`, `.byte 0xNN` of any other value assembles to that byte, and every other
line, `.byte 0x80` among them, is refused. -/
def Obligations.AssemblerAcceptsExactlyTheSpellings : Prop :=
  (∀ src : List Char, assemble src = some [0x80] ↔
    src ∈ ([['A', 'D', 'D', ' ', 'A', ',', ' ', 'B'], ['A', 'D', 'D', ' ', 'A', ',', ' ', 'b'],
      ['A', 'D', 'D', ' ', 'a', ',', ' ', 'B'], ['A', 'D', 'D', ' ', 'a', ',', ' ', 'b'],
      ['a', 'd', 'd', '_', 'a', '_', 'b']] : List (List Char))) ∧
  (∀ (x y : Char) (p q : Nat), hexDigit x = some p → hexDigit y = some q →
    assemble ['.', 'b', 'y', 't', 'e', ' ', '0', 'x', x, y] =
      if 16 * p + q = 0x80 then none else some [BitVec.ofNat 8 (16 * p + q)]) ∧
  ∀ src : List Char, assemble src ≠ some [0x80] →
    (∀ (x y : Char) (p q : Nat), hexDigit x = some p → hexDigit y = some q →
      src ≠ ['.', 'b', 'y', 't', 'e', ' ', '0', 'x', x, y]) →
    assemble src = none

/-! ### The dispatch stub -/

/-- 42_dispatch_stub.md R131, R132 (the spec's decision D3): in RUN, when the byte at pc decodes to an instruction, a step
advances pc past it, modulo 2^16, and is the instruction. -/
def Obligations.StepRunsTheDecodedInstruction : Prop :=
  ∀ (s : State) (i : Instr) (rest : List Byte),
    s.phase = .run → decode [s.imem.read s.regs.pc] = .instr i rest →
    step s = exec i { s with regs := { s.regs with pc := s.regs.pc + BitVec.ofNat 16 i.length } }

/-- 60_exceptions.md R151, R152 (the spec's decisions D5, D22; held as a next state, log 6, DEDUCED): in RUN, on a byte other
than 0x80 (the opcode value: 30_encoding.md R82, the spec's decision D4; log 3, PRESUMED), a step is the fault: cause code 1,
the address and the byte are recorded, phase is FAULT, and nothing else changes. -/
def Obligations.UnimplementedOpcodeFaultIsPrecise : Prop :=
  ∀ s : State, s.phase = .run → s.imem.read s.regs.pc ≠ 0x80 →
    step s = .next { s with
      phase := .fault, faultCause := 1, faultPc := s.regs.pc, faultOpcode := s.imem.read s.regs.pc }

/-- 42_dispatch_stub.md R135 (the spec's decision D5; as a stop of the model log 7): there is no step exactly in FAULT, and a
step the host invokes there changes nothing. -/
def Obligations.NoStepExactlyInFault : Prop :=
  ∀ s : State, (step s = .fault .noStepInFault ↔ s.phase = .fault) ∧
    (s.phase = .fault → applyMove .step s = s)

/-- 70_reset_and_hazards.md R177, 00_scope.md R12: in RUN every step completes, and no step is ever refused. That a step on a
byte other than `OPC_ADD_A_B` completes in a next state in phase FAULT is 60_exceptions.md R151, R152 (the spec's decision D5)
as the model holds it (log 6, DEDUCED). -/
def Obligations.EveryStepInRunCompletes : Prop :=
  (∀ s : State, s.phase = .run → ∃ t, step s = .next t ∧ (t.phase = .fault ↔ s.imem.read s.regs.pc ≠ Config.opcAddAB)) ∧
  ∀ (s : State) (r : Refusal), step s ≠ .refused r

/-- 10_state.md R27, 42_dispatch_stub.md R132, R133 (the spec's decisions D3, D6): a step that stays in RUN advances pc by one
modulo 2^16, a faulting step leaves pc, and no instruction changes pc itself. -/
def Obligations.PcAdvancesByOneOrStays : Prop :=
  (∀ s t : State, step s = .next t →
    t.regs.pc.toNat = if t.phase = .run then (s.regs.pc.toNat + 1) % 65536 else s.regs.pc.toNat) ∧
  ∀ (i : Instr) (s t : State), exec i s = .next t → t.regs.pc = s.regs.pc

/-- 10_state.md R26, R29, R38 and 20_memory.md R62 (the spec's inferences and decisions D9, D16, D19; log 11, DEDUCED): what
every step leaves unchanged. That a step which stays in RUN leaves the fault record is 10_state.md R42 (the spec's decision
D22), and that a faulting one leaves every register is 60_exceptions.md R152 (its decision D5; log 6, DEDUCED). -/
def Obligations.StepFrame : Prop :=
  ∀ s t : State, step s = .next t →
    (∀ r, r ≠ .a → r ≠ .f → t.regs.read8 r = s.regs.read8 r) ∧
    t.regs.sp = s.regs.sp ∧ lowNibble t.regs.f = lowNibble s.regs.f ∧
    (∀ k : Word, t.imem.read k = s.imem.read k) ∧
    (t.phase = .run → t.faultCause = s.faultCause ∧ t.faultPc = s.faultPc ∧ t.faultOpcode = s.faultOpcode) ∧
    (t.phase = .fault → t.regs = s.regs)

/-- 42_dispatch_stub.md R131, 30_encoding.md R85 (the spec's decisions D3, D21): a step fetches exactly the byte at pc, so it
does not depend on any other byte of IMEM. -/
def Obligations.StepReadsOnlyTheByteAtPc : Prop :=
  ∀ (s : State) (m : Memory), m.read s.regs.pc = s.imem.read s.regs.pc →
    step { s with imem := m } =
      match step s with
      | .next t => .next { t with imem := m }
      | .fault r => .fault r
      | .refused r => .refused r

/-- 10_state.md R42 (the spec's decision D22): in RUN no step reads the fault record; a step's result depends on it in no
register, phase or byte of IMEM, and a faulting step overwrites all of it. -/
def Obligations.FaultRecordIsUnreadInRun : Prop :=
  ∀ (s : State) (cause : Nat) (p : Word) (o : Byte), s.phase = .run → ∃ t u,
    step s = .next t ∧ step { s with faultCause := cause, faultPc := p, faultOpcode := o } = .next u ∧
    u = if t.phase = .run then { t with faultCause := cause, faultPc := p, faultOpcode := o } else t

/-! ### IMEM -/

/-- 20_memory.md R60, R61 (the spec's decision D2), as the model holds IMEM (logs 1, 2): every total function from 16-bit
addresses to bytes is an IMEM the host can supply. -/
def Obligations.EveryImemCanBeSupplied : Prop :=
  ∀ g : Word → Byte, ∃ cells : List (Word × Byte), ∀ s : State,
    (applyMove (.supply cells) s).imem.wf ∧ ∀ k : Word, (applyMove (.supply cells) s).imem.read k = g k

/-- The model's representation (logs 1, 2): two memories in canonical form that read alike at every 16-bit address are the
same data. -/
def Obligations.CanonicalImemIsUnique : Prop :=
  ∀ m m' : Memory, m.wf → m'.wf → (∀ k : Word, m.read k = m'.read k) → m = m'

/-! ### Invariants -/

/-- The stub's invariant holds at reset: its clauses on FAULT are 60_exceptions.md R152 (the spec's decision D5), and reset is
in RUN (10_state.md R45); that IMEM is in canonical form, empty at reset, is the model's representation (logs 1, 2, DESIGN
CHOICE). -/
def Obligations.StubInvariantAtReset : Prop := StubInv State.reset

/-- 60_exceptions.md R151, R152, 10_state.md R42 (the spec's decisions D5, D22): from every state that meets it, a step keeps
the stub's invariant: in FAULT the cause code is 1, fault_pc is pc, fault_opcode is the byte there and no opcode of the block.
Its clause that IMEM is canonical is the model's choice (log 1, DESIGN CHOICE). -/
def Obligations.StubInvariantKeptByStep : Prop :=
  ∀ s t : State, StubInv s → step s = .next t → StubInv t

/-- 60_exceptions.md R151, R161 (the spec's decisions D5, D8, D22): every move of the host keeps, in FAULT, the fault record that
of the one cause; so no sequence of moves from reset leads to a state where this fails. That every move keeps IMEM canonical
is a fact of the model's representation (log 1, DESIGN CHOICE). -/
def Obligations.HostMovesKeepRecordsSound : Prop :=
  (∀ (m : HostMove) (s : State), s.imem.wf → FaultRecordSound s →
    (applyMove m s).imem.wf ∧ FaultRecordSound (applyMove m s)) ∧
  ∀ s : State, Reachable s → s.imem.wf ∧ FaultRecordSound s

/-- 10_state.md R38 (the spec's decision D9): every move of the host but a load of f keeps a zero low nibble of f zero, and
no move but reset and a load of f changes the low nibble at all. -/
def Obligations.LowNibbleOfFStays : Prop :=
  ∀ (m : HostMove) (s : State), (∀ v, m ≠ .load8 .f v) →
    (lowNibble s.regs.f = 0 → lowNibble (applyMove m s).regs.f = 0) ∧
    (m ≠ .reset → lowNibble (applyMove m s).regs.f = lowNibble s.regs.f)

/-! ### Runs -/

/-- 20_memory.md R62, 42_dispatch_stub.md R137 (the spec's decisions D15, D19), 10_state.md R26, R29, R38 (its inference and
its decisions D9, D16; log 11, DEDUCED): along a run of any length IMEM, sp, the low nibble of f and the registers that no
instruction writes stay as they were. -/
def Obligations.RunFrame : Prop :=
  ∀ (n : Nat) (s t : State), runFor n s = .next t →
    t.imem = s.imem ∧ t.regs.sp = s.regs.sp ∧ lowNibble t.regs.f = lowNibble s.regs.f ∧
    ∀ r, r ≠ .a → r ≠ .f → t.regs.read8 r = s.regs.read8 r

/-- 42_dispatch_stub.md R131, R133, R137 (the spec's decisions D3, D6, D15): while the next `n` bytes are `OPC_ADD_A_B`, at
addresses modulo 2^16, `n` steps stay in RUN, advance pc by `n` and add b to a `n` times. -/
def Obligations.RunOverAdmittedBytes : Prop :=
  ∀ (n : Nat) (s : State), s.phase = .run →
    (∀ k, k < n → s.imem.read (s.regs.pc + BitVec.ofNat 16 k) = Config.opcAddAB) →
    ∃ t, runFor n s = .next t ∧ t.phase = .run ∧ t.regs.pc = s.regs.pc + BitVec.ofNat 16 n ∧
      t.regs.a = s.regs.a + BitVec.ofNat 8 n * s.regs.b ∧ t.regs.b = s.regs.b ∧ t.imem = s.imem

/-- 42_dispatch_stub.md R135, R137 (the spec's decisions D5, D15): the run stops in FAULT at the first other byte, with its
address and value recorded and the work done before it kept, and there is no step after. -/
def Obligations.RunStopsAtTheFirstOtherByte : Prop :=
  ∀ (n : Nat) (s : State), s.phase = .run →
    (∀ k, k < n → s.imem.read (s.regs.pc + BitVec.ofNat 16 k) = Config.opcAddAB) →
    s.imem.read (s.regs.pc + BitVec.ofNat 16 n) ≠ Config.opcAddAB →
    ∃ t, runFor (n + 1) s = .next t ∧ t.phase = .fault ∧ t.faultCause = 1 ∧
      t.faultPc = s.regs.pc + BitVec.ofNat 16 n ∧ t.regs.pc = t.faultPc ∧
      t.faultOpcode = s.imem.read t.faultPc ∧ t.regs.a = s.regs.a + BitVec.ofNat 8 n * s.regs.b ∧
      ∀ m, runFor (n + 2 + m) s = .fault .noStepInFault

/-- 42_dispatch_stub.md R137 (the spec's decision D15): a run from RUN either never stops, or reaches FAULT (a next state, log
6, DEDUCED) after finitely many steps, all clean before it. R137 gives "every byte of `IMEM` is `OPC_ADD_A_B`" only as an
example of a run that never stops; that it is the only one follows because pc walks every address modulo 2^16
(42_dispatch_stub.md R131 to R133, the spec's decisions D3, D6; log 11, DEDUCED). That there is no step after FAULT is R135
(its decision D5; log 7, DEDUCED). -/
def Obligations.RunNeverEndsOrFaults : Prop :=
  ∀ s : State, s.phase = .run →
    ((∀ n, CleanFor n s) ↔ ∀ k : Word, s.imem.read k = Config.opcAddAB) ∧
    ((∀ n, CleanFor n s) ∨
      ∃ n t, runFor n s = .next t ∧ t.phase = .fault ∧ (∀ m, m < n → CleanFor m s) ∧
        ∀ m, n < m → runFor m s = .fault .noStepInFault)
end

