-- ==== Sys2Proof/Laws/Registers.lean ====
section
/-! SUPPORT. Laws of the register file: what each write changes and what it leaves. -/

namespace Sys2Proof.Machine

variable (x : RegisterFile)

theorem read8_put8 (r r' : Reg8) (v : Byte) : (x.put8 r v).read8 r' = if r' = r then v else x.read8 r' := by
  cases r <;> cases r' <;> rfl

@[simp] theorem read16_put8 (r : Reg8) (v : Byte) (r' : Reg16) : (x.put8 r v).read16 r' = x.read16 r' := by
  cases r <;> cases r' <;> rfl

@[simp] theorem read8_put16 (r : Reg16) (v : Word) (r' : Reg8) : (x.put16 r v).read8 r' = x.read8 r' := by
  cases r <;> cases r' <;> rfl

theorem read16_put16 (r r' : Reg16) (v : Word) : (x.put16 r v).read16 r' = if r' = r then v else x.read16 r' := by
  cases r <;> cases r' <;> rfl

@[simp] theorem put8_read8 (r : Reg8) : x.put8 r (x.read8 r) = x := by
  cases r <;> rfl

@[simp] theorem put8_put8 (r : Reg8) (v w : Byte) : (x.put8 r v).put8 r w = x.put8 r w := by
  cases r <;> rfl

theorem put8_comm {r r' : Reg8} (ne : r ≠ r') (v w : Byte) : (x.put8 r v).put8 r' w = (x.put8 r' w).put8 r v := by
  cases r <;> cases r' <;> first | rfl | exact absurd rfl ne

@[simp] theorem put8_sp (r : Reg8) (v : Byte) : (x.put8 r v).sp = x.sp := by cases r <;> rfl

@[simp] theorem put8_pc (r : Reg8) (v : Byte) : (x.put8 r v).pc = x.pc := by cases r <;> rfl

/-- Two register files that every port reads alike are one. -/
theorem RegisterFile.ext_reads {x y : RegisterFile} (h8 : ∀ r, x.read8 r = y.read8 r)
    (h16 : ∀ r, x.read16 r = y.read16 r) : x = y := by
  obtain ⟨⟩ := x
  obtain ⟨⟩ := y
  have := h8 .a; have := h8 .f; have := h8 .b; have := h8 .c; have := h8 .d; have := h8 .e; have := h8 .h; have := h8 .l
  have := h16 .sp; have := h16 .pc
  simp_all [RegisterFile.read8, RegisterFile.read16]

/-- A value already in range is stored as it is. -/
@[simp] theorem assign8_toNat (r : Reg8) (v : Byte) : x.assign8 r v.toNat = x.put8 r v := by
  simp [RegisterFile.assign8]

@[simp] theorem assign16_toNat (r : Reg16) (v : Word) : x.assign16 r v.toNat = x.put16 r v := by
  simp [RegisterFile.assign16]

/-- `write8` never reaches f. -/
theorem GReg.toReg8_ne_f (r : GReg) : r.toReg8 ≠ .f := by cases r <;> decide

theorem GReg.toReg8_inj {r r' : GReg} : r.toReg8 = r'.toReg8 ↔ r = r' := by
  cases r <;> cases r' <;> decide

theorem Pair.hi_ne_lo (p : Pair) : p.hi ≠ p.lo := by cases p <;> decide

end Sys2Proof.Machine
end

