-- ==== Sys2Proof/Laws/Flags.lean ====
section
/-! SUPPORT. Laws of the flag register and of the ALU: one lemma says all that `setFlag` does. -/

namespace Sys2Proof.Machine

/-- The byte that `setFlag` leaves in f. -/
def withFlag (v : Byte) (X : FlagBit) (t : Bool) : Byte := if t then v ||| X.mask else v &&& ~~~X.mask

/-- `setFlag` replaces f, by a byte computed from f alone, and nothing else. -/
theorem setFlag_eq_put8 (x : RegisterFile) (X : FlagBit) (t : Bool) : x.setFlag X t = x.put8 .f (withFlag x.f X t) := by
  cases t <;> rfl

theorem readFlag_eq (x : RegisterFile) (X : FlagBit) : x.readFlag X = ((x.f &&& X.mask) != 0) := rfl

@[simp] theorem withFlag_true (v : Byte) (X : FlagBit) : withFlag v X true = v ||| X.mask := rfl

@[simp] theorem withFlag_false (v : Byte) (X : FlagBit) : withFlag v X false = v &&& ~~~X.mask := rfl

@[simp] theorem read8_f (x : RegisterFile) : x.read8 .f = x.f := rfl

/-- All four flags written, the low nibble kept. -/
def withFlags (v : Byte) (z n h cy : Bool) : Byte :=
  withFlag (withFlag (withFlag (withFlag v .z z) .n n) .h h) .c cy

/-- Committing a result replaces f and the destination, and nothing else. -/
theorem commit_eq (x : RegisterFile) (dst : GReg) (r : AluResult) :
    x.commit dst r = (x.put8 .f (withFlags x.f r.z r.n r.h r.cy)).put8 dst.toReg8 r.res := by
  simp only [RegisterFile.commit, setFlag_eq_put8, put8_put8, RegisterFile.write8, assign8_toNat]
  rfl

/-- The wrapped sum as a byte. -/
theorem add8_res_eq_add (op1 op2 : Byte) : (alu .add8 op1 op2).res = op1 + op2 := by
  apply BitVec.eq_of_toNat_eq
  simp [alu, add8]

/-- `ADD A, B` replaces a and f, and nothing else. -/
theorem addAB_eq (x : RegisterFile) :
    addAB x = { x with
      a := x.a + x.b
      f := withFlags x.f (alu .add8 x.a x.b).z (alu .add8 x.a x.b).n (alu .add8 x.a x.b).h (alu .add8 x.a x.b).cy } := by
  rw [addAB, commit_eq, add8_res_eq_add]
  rfl

end Sys2Proof.Machine
end

