-- ==== Sys2Proof/Laws/Memory.lean ====
section
/-! SUPPORT. Laws of IMEM: reads after a placed byte, and every operation keeps the canonical form. -/

namespace Sys2Proof.Machine

/-- An address below every listed one reads as unlisted. -/
theorem lookup_of_lt (k : Nat) (m : Memory) (lt : ∀ x ∈ m, k < x.1) : m.lookup k = Config.unlistedByte := by
  induction m with
  | nil => rfl
  | cons x m ih =>
    have head : x.1 ≠ k := by have := lt x (by simp); omega
    simp only [Memory.lookup, head, if_false]
    exact ih fun y mem => lt y (by simp [mem])

theorem lookup_insert_other {k k' : Nat} (ne : k' ≠ k) (v : Byte) (m : Memory) :
    Memory.lookup k' (Memory.insert k v m) = m.lookup k' := by
  induction m with
  | nil => simp only [Memory.insert]; split <;> simp [Memory.lookup, ne.symm]
  | cons x m ih =>
    obtain ⟨a, b⟩ := x
    simp only [Memory.insert]
    split
    · split <;> simp [Memory.lookup, ne.symm]
    · split
      · next eq => subst eq; split <;> simp [Memory.lookup, ne.symm]
      · simp [Memory.lookup, ih]

theorem lookup_insert_same (k : Nat) (v : Byte) (m : Memory) (wf : m.wf) :
    Memory.lookup k (Memory.insert k v m) = v := by
  induction m with
  | nil => simp only [Memory.insert]; split <;> simp_all [Memory.lookup]
  | cons x m ih =>
    obtain ⟨a, b⟩ := x
    obtain ⟨rising, inside⟩ := wf
    obtain ⟨above, risingTail⟩ := List.pairwise_cons.1 rising
    have wfTail : Memory.wf m := ⟨risingTail, fun y mem => inside y (by simp [mem])⟩
    simp only [Memory.insert]
    split
    · next lt =>
      split
      · next unlisted =>
        rw [unlisted]
        refine lookup_of_lt k _ fun y mem => ?_
        rcases List.mem_cons.1 mem with rfl | mem
        · exact lt
        · exact Nat.lt_trans lt (above y mem)
      · simp [Memory.lookup]
    · split
      · next eq =>
        subst eq
        split
        · next unlisted => rw [unlisted]; exact lookup_of_lt k m above
        · simp [Memory.lookup]
      · next ge ne => simp [Memory.lookup, Ne.symm ne, ih wfTail]

/-- What an inserted memory lists: entries it had, or the new one. -/
theorem mem_insert {k : Nat} {v : Byte} {m : Memory} {y : Host.Cell} (mem : y ∈ Memory.insert k v m) :
    y ∈ m ∨ (y = (k, v) ∧ v ≠ Config.unlistedByte) := by
  induction m with
  | nil => simp only [Memory.insert] at mem; split at mem <;> simp_all
  | cons x m ih =>
    obtain ⟨a, b⟩ := x
    simp only [Memory.insert] at mem
    split at mem
    · split at mem
      · exact .inl mem
      · rcases List.mem_cons.1 mem with rfl | mem
        · exact .inr ⟨rfl, ‹_›⟩
        · exact .inl mem
    · split at mem
      · split at mem
        · exact .inl (by simp [mem])
        · rcases List.mem_cons.1 mem with rfl | mem
          · exact .inr ⟨rfl, ‹_›⟩
          · exact .inl (by simp [mem])
      · rcases List.mem_cons.1 mem with rfl | mem
        · exact .inl (by simp)
        · rcases ih mem with old | new
          · exact .inl (by simp [old])
          · exact .inr new

theorem insert_pairwise (k : Nat) (v : Byte) (m : Memory) (rising : m.Pairwise (fun x y => x.1 < y.1)) :
    (Memory.insert k v m).Pairwise (fun x y => x.1 < y.1) := by
  induction m with
  | nil => simp only [Memory.insert]; split <;> simp
  | cons x m ih =>
    obtain ⟨a, b⟩ := x
    obtain ⟨above, risingTail⟩ := List.pairwise_cons.1 rising
    simp only [Memory.insert]
    split
    · next lt =>
      split
      · exact rising
      · refine List.pairwise_cons.2 ⟨fun y mem => ?_, rising⟩
        rcases List.mem_cons.1 mem with rfl | mem
        · exact lt
        · exact Nat.lt_trans lt (above y mem)
    · split
      · next eq =>
        subst eq
        split
        · exact risingTail
        · exact List.pairwise_cons.2 ⟨above, risingTail⟩
      · refine List.pairwise_cons.2 ⟨fun y mem => ?_, ih risingTail⟩
        rcases mem_insert mem with old | ⟨rfl, _⟩
        · exact above y old
        · show a < k
          omega

/-- Placing a byte keeps the canonical form. -/
theorem place_wf (m : Memory) (addr : Word) (v : Byte) (wf : m.wf) : (m.place addr v).wf := by
  refine ⟨insert_pairwise _ v m wf.1, fun y mem => ?_⟩
  rcases mem_insert mem with old | ⟨rfl, listed⟩
  · exact wf.2 y old
  · exact ⟨addr.isLt, listed⟩

/-- A placed byte is read back; every other address reads as before. -/
theorem read_place (m : Memory) (addr addr' : Word) (v : Byte) (wf : m.wf) :
    (m.place addr v).read addr' = if addr' = addr then v else m.read addr' := by
  split
  · next eq => subst eq; exact lookup_insert_same _ v m wf
  · next ne => exact lookup_insert_other (fun eq => ne (BitVec.eq_of_toNat_eq eq)) v m

theorem empty_wf : Memory.wf [] := by decide

theorem foldl_place_wf (cells : List (Word × Byte)) (m : Memory) (wf : m.wf) :
    Memory.wf (cells.foldl (fun m x => m.place x.1 x.2) m) := by
  induction cells generalizing m with
  | nil => exact wf
  | cons x cells ih => exact ih _ (place_wf m x.1 x.2 wf)

/-- What the host supplies is in canonical form. -/
theorem ofCells_wf (cells : List (Word × Byte)) : (Memory.ofCells cells).wf := foldl_place_wf cells [] empty_wf

/-- One more byte supplied is one more byte placed. -/
theorem ofCells_append (cells : List (Word × Byte)) (addr : Word) (v : Byte) :
    Memory.ofCells (cells ++ [(addr, v)]) = (Memory.ofCells cells).place addr v := by
  simp [Memory.ofCells]

/-- Placing the fetch word keeps the canonical form. -/
theorem withFetchWord_imem_wf (s : State) (nbits w : Nat) (wf : s.imem.wf) : (s.withFetchWord nbits w).imem.wf :=
  place_wf _ _ _ wf

/-- The IMEM of the reset state is in canonical form. -/
theorem reset_imem_wf : State.reset.imem.wf := empty_wf

end Sys2Proof.Machine
end

