-- ==== Sys2Proof/Laws/Operands.lean ====
section
/-! SUPPORT. Laws of the wide register accessor. -/

namespace Sys2Proof.Machine

/-- Two bytes side by side, as numbers. -/
theorem concatBytes_toNat (hi lo : Byte) : (concatBytes hi lo).toNat = hi.toNat <<< 8 ||| lo.toNat := by
  have hiLt := hi.isLt
  have loLt := lo.isLt
  have shifted : hi.toNat <<< 8 < 2 ^ 16 := by rw [Nat.shiftLeft_eq]; omega
  simp only [concatBytes, BitVec.toNat_or, BitVec.toNat_shiftLeft, BitVec.toNat_setWidth]
  rw [Nat.mod_eq_of_lt (by omega : hi.toNat < 2 ^ 16), Nat.mod_eq_of_lt (by omega : lo.toNat < 2 ^ 16),
    Nat.mod_eq_of_lt shifted]

/-- `writeWide` is two register writes: the high byte of the value, then the low byte. -/
theorem writeWide_eq (x : RegisterFile) (p : Pair) (v : Nat) :
    x.writeWide p v =
      (x.put8 p.hi.toReg8 (BitVec.ofNat 8 ((v % 2 ^ 16) >>> 8))).put8 p.lo.toReg8
        (BitVec.ofNat 8 ((v % 2 ^ 16) &&& 0xFF)) := rfl

end Sys2Proof.Machine
end

