-- ==== Sys2Proof/Laws/PerInstr.lean ====
section
/-! SUPPORT. Statements made for each instruction of the table. -/

/-- Every instruction is well formed, and its encoding is as long as the decoder says (30_encoding.md R80). -/
def Sys2Proof.Laws.EncodedLength.Statement (i : Sys2Proof.Instr) : Prop :=
  i.wf = true ∧ ∀ opc : Sys2Proof.Byte, (Sys2Proof.encodeWith opc i).length = i.length

theorem Sys2Proof.Laws.EncodedLength.addAB : Sys2Proof.Laws.EncodedLength.Statement .addAB :=
  ⟨rfl, fun _ => rfl⟩
end

