-- ==== Sys2Proof/Laws/State.lean ====
section
/-! SUPPORT. One lemma per field per update of the state. -/

namespace Sys2Proof.Machine

variable (s : State)

@[simp] theorem setRegs_regs (x : RegisterFile) : (s.setRegs x).regs = x := rfl
@[simp] theorem setRegs_phase (x : RegisterFile) : (s.setRegs x).phase = s.phase := rfl
@[simp] theorem setRegs_faultCause (x : RegisterFile) : (s.setRegs x).faultCause = s.faultCause := rfl
@[simp] theorem setRegs_faultPc (x : RegisterFile) : (s.setRegs x).faultPc = s.faultPc := rfl
@[simp] theorem setRegs_faultOpcode (x : RegisterFile) : (s.setRegs x).faultOpcode = s.faultOpcode := rfl
@[simp] theorem setRegs_imem (x : RegisterFile) : (s.setRegs x).imem = s.imem := rfl

@[simp] theorem advancePc_phase (n : Nat) : (s.advancePc n).phase = s.phase := rfl
@[simp] theorem advancePc_faultCause (n : Nat) : (s.advancePc n).faultCause = s.faultCause := rfl
@[simp] theorem advancePc_faultPc (n : Nat) : (s.advancePc n).faultPc = s.faultPc := rfl
@[simp] theorem advancePc_faultOpcode (n : Nat) : (s.advancePc n).faultOpcode = s.faultOpcode := rfl
@[simp] theorem advancePc_imem (n : Nat) : (s.advancePc n).imem = s.imem := rfl

/-- Advancing pc changes pc alone, modulo 2^16. -/
theorem advancePc_regs (n : Nat) :
    (s.advancePc n).regs = { s.regs with pc := s.regs.pc + BitVec.ofNat 16 n } := by
  simp [State.advancePc, RegisterFile.write16, RegisterFile.assign16, RegisterFile.put16, BitVec.ofNat_add]

variable (cause : FaultCause) (p : Word) (o : Byte)

@[simp] theorem raiseFault_regs : (raiseFault cause p o s).regs = s.regs := rfl
@[simp] theorem raiseFault_phase : (raiseFault cause p o s).phase = .fault := rfl
@[simp] theorem raiseFault_faultCause : (raiseFault cause p o s).faultCause = cause.code := rfl
@[simp] theorem raiseFault_faultPc : (raiseFault cause p o s).faultPc = p := rfl
@[simp] theorem raiseFault_faultOpcode : (raiseFault cause p o s).faultOpcode = o := rfl
@[simp] theorem raiseFault_imem : (raiseFault cause p o s).imem = s.imem := rfl

@[simp] theorem resetBlock_regs : (resetBlock s).regs = State.reset.regs := rfl
@[simp] theorem resetBlock_phase : (resetBlock s).phase = .run := rfl
@[simp] theorem resetBlock_faultCause : (resetBlock s).faultCause = State.reset.faultCause := rfl
@[simp] theorem resetBlock_faultPc : (resetBlock s).faultPc = State.reset.faultPc := rfl
@[simp] theorem resetBlock_faultOpcode : (resetBlock s).faultOpcode = State.reset.faultOpcode := rfl
@[simp] theorem resetBlock_imem : (resetBlock s).imem = s.imem := rfl

variable (cells : List (Word × Byte))

@[simp] theorem supplyImem_regs : (supplyImem cells s).regs = s.regs := rfl
@[simp] theorem supplyImem_phase : (supplyImem cells s).phase = s.phase := rfl
@[simp] theorem supplyImem_faultCause : (supplyImem cells s).faultCause = s.faultCause := rfl
@[simp] theorem supplyImem_faultPc : (supplyImem cells s).faultPc = s.faultPc := rfl
@[simp] theorem supplyImem_faultOpcode : (supplyImem cells s).faultOpcode = s.faultOpcode := rfl
@[simp] theorem supplyImem_imem : (supplyImem cells s).imem = Memory.ofCells cells := rfl

@[simp] theorem hostLoad8_regs (r : Reg8) (v : Nat) : (hostLoad8 r v s).regs = s.regs.assign8 r v := rfl
@[simp] theorem hostLoad8_phase (r : Reg8) (v : Nat) : (hostLoad8 r v s).phase = s.phase := rfl
@[simp] theorem hostLoad8_faultCause (r : Reg8) (v : Nat) : (hostLoad8 r v s).faultCause = s.faultCause := rfl
@[simp] theorem hostLoad8_faultPc (r : Reg8) (v : Nat) : (hostLoad8 r v s).faultPc = s.faultPc := rfl
@[simp] theorem hostLoad8_faultOpcode (r : Reg8) (v : Nat) : (hostLoad8 r v s).faultOpcode = s.faultOpcode := rfl
@[simp] theorem hostLoad8_imem (r : Reg8) (v : Nat) : (hostLoad8 r v s).imem = s.imem := rfl

@[simp] theorem hostLoad16_regs (r : Reg16) (v : Nat) : (hostLoad16 r v s).regs = s.regs.assign16 r v := rfl
@[simp] theorem hostLoad16_phase (r : Reg16) (v : Nat) : (hostLoad16 r v s).phase = s.phase := rfl
@[simp] theorem hostLoad16_faultCause (r : Reg16) (v : Nat) : (hostLoad16 r v s).faultCause = s.faultCause := rfl
@[simp] theorem hostLoad16_faultPc (r : Reg16) (v : Nat) : (hostLoad16 r v s).faultPc = s.faultPc := rfl
@[simp] theorem hostLoad16_faultOpcode (r : Reg16) (v : Nat) : (hostLoad16 r v s).faultOpcode = s.faultOpcode := rfl
@[simp] theorem hostLoad16_imem (r : Reg16) (v : Nat) : (hostLoad16 r v s).imem = s.imem := rfl

variable (nbits w : Nat)

@[simp] theorem withFetchWord_regs : (s.withFetchWord nbits w).regs = s.regs := rfl
@[simp] theorem withFetchWord_phase : (s.withFetchWord nbits w).phase = .run := rfl
@[simp] theorem withFetchWord_faultCause : (s.withFetchWord nbits w).faultCause = s.faultCause := rfl
@[simp] theorem withFetchWord_faultPc : (s.withFetchWord nbits w).faultPc = s.faultPc := rfl
@[simp] theorem withFetchWord_faultOpcode : (s.withFetchWord nbits w).faultOpcode = s.faultOpcode := rfl

end Sys2Proof.Machine
end

