-- ==== Sys2Proof/Laws/Stub.lean ====
section
/-! SUPPORT. What one invocation of the stub can do, said once. -/

namespace Sys2Proof.Machine

theorem lookupOpcode_eq (opc op : Byte) : lookupOpcode opc op = if op = opc then some .addAB else none := by
  by_cases same : op = opc
  · simp [lookupOpcode, opcodeTable, same]
  · have other : (opc == op) = false := by simpa using fun eq => same eq.symm
    simp [lookupOpcode, opcodeTable, same, other]

theorem stubStep_in_fault (opc : Byte) (s : State) (fault : s.phase = .fault) :
    stubStep opc s = .fault .noStepInFault := by
  simp [stubStep, fault]

theorem stubStep_admitted (opc : Byte) (s : State) (run : s.phase = .run) (byte : s.fetch = opc) :
    stubStep opc s = .next ((s.advancePc 1).setRegs (addAB (s.advancePc 1).regs)) := by
  simp [stubStep, runPhaseStep, run, decodeWith, lookupOpcode_eq, byte, exec, execAddAB, Instr.length]

theorem stubStep_unimplemented (opc : Byte) (s : State) (run : s.phase = .run) (byte : s.fetch ≠ opc) :
    stubStep opc s = .next (raiseFault .unimplementedOpcode s.regs.pc s.fetch s) := by
  simp [stubStep, runPhaseStep, run, decodeWith, lookupOpcode_eq, byte]

/-- A next state comes from phase RUN: by the instruction, or by the one fault. -/
theorem stubStep_next_cases {opc : Byte} {s t : State} (h : stubStep opc s = .next t) :
    s.phase = .run ∧
    ((s.fetch = opc ∧ t = (s.advancePc 1).setRegs (addAB (s.advancePc 1).regs)) ∨
     (s.fetch ≠ opc ∧ t = raiseFault .unimplementedOpcode s.regs.pc s.fetch s)) := by
  cases run : s.phase with
  | fault => rw [stubStep_in_fault opc s run] at h; cases h
  | run =>
    refine ⟨rfl, ?_⟩
    by_cases byte : s.fetch = opc
    · rw [stubStep_admitted opc s run byte] at h
      cases h
      exact .inl ⟨byte, rfl⟩
    · rw [stubStep_unimplemented opc s run byte] at h
      cases h
      exact .inr ⟨byte, rfl⟩

theorem hostStep_in_fault (s : State) (fault : s.phase = .fault) : hostStep s = s := by
  simp [hostStep, step, stubStep_in_fault _ s fault]

theorem hostStep_admitted (s : State) (run : s.phase = .run) (byte : s.fetch = Config.opcAddAB) :
    hostStep s = (s.advancePc 1).setRegs (addAB (s.advancePc 1).regs) := by
  simp [hostStep, step, stubStep_admitted _ s run byte]

theorem hostStep_unimplemented (s : State) (run : s.phase = .run) (byte : s.fetch ≠ Config.opcAddAB) :
    hostStep s = raiseFault .unimplementedOpcode s.regs.pc s.fetch s := by
  simp [hostStep, step, stubStep_unimplemented _ s run byte]

end Sys2Proof.Machine
end

