-- ==== Sys2Proof/Laws/Run.lean ====
section
/-! SUPPORT. Runs unfolded one step at a time. -/

namespace Sys2Proof

open Sys2Proof.Machine

@[simp] theorem runFor_zero (s : State) : runFor 0 s = .next s := rfl

theorem runFor_succ_of_next {s t : State} (h : step s = .next t) (n : Nat) : runFor (n + 1) s = runFor n t := by
  have h' : core.step s = .next t := h
  simp only [runFor, Host.Core.run, h']
  rfl

theorem runFor_succ_of_fault {s : State} {r : Fault} (h : step s = .fault r) (n : Nat) : runFor (n + 1) s = .fault r := by
  have h' : core.step s = .fault r := h
  simp only [runFor, Host.Core.run, h']
  rfl

theorem runFor_succ_of_refused {s : State} {r : Refusal} (h : step s = .refused r) (n : Nat) :
    runFor (n + 1) s = .refused r := by
  have h' : core.step s = .refused r := h
  simp only [runFor, Host.Core.run, h']
  rfl

/-- A run of `n + m` steps is a run of `m` steps from where the first `n` end. -/
theorem runFor_add {n : Nat} {s t : State} (h : runFor n s = .next t) (m : Nat) : runFor (n + m) s = runFor m t := by
  induction n generalizing s with
  | zero => cases h; simp
  | succ n ih =>
    rw [Nat.succ_add]
    cases first : step s with
    | next u =>
      rw [runFor_succ_of_next first] at h ⊢
      exact ih h
    | fault r => rw [runFor_succ_of_fault first] at h; cases h
    | refused r => rw [runFor_succ_of_refused first] at h; cases h

end Sys2Proof
end

