-- ==== Sys2Proof/Tests/Slice0.lean ====
section
/-! SUPPORT. The model's own tests, from the vectors of 95_test_vectors.md, and a witness for the hypotheses of each statement
that has some. -/

namespace Sys2Proof.Tests

open Sys2Proof.Machine

/-- A state in RUN with a, b, f, pc loaded after reset and the listed bytes in IMEM. -/
def testState (a b f : Byte) (pc : Word) (cells : List (Word × Byte)) : State :=
  { State.reset with
    regs := { RegisterFile.reset with a := a, b := b, f := f, pc := pc }
    imem := Memory.ofCells cells }

/-- The next state, if there is one. -/
def nextOf (o : Host.Outcome State Fault Refusal) : Option State :=
  match o with
  | .next t => some t
  | .fault _ => none
  | .refused _ => none

/-! ### Well-formedness: each check refuses an ill-formed term -/

/-- Two handlers on one opcode byte. -/
theorem test_opcodesDistinct_refuses : opcodesDistinct [⟨0x80, .addAB⟩, ⟨0x80, .addAB⟩] = false := by decide

/-- One instruction on two opcode bytes. -/
theorem test_instrsDistinct_refuses :
    opcodesDistinct [⟨0x80, .addAB⟩, ⟨0x81, .addAB⟩] = true ∧ instrsDistinct [⟨0x80, .addAB⟩, ⟨0x81, .addAB⟩] = false := by
  decide

theorem test_opcodeTable_wf : opcodeTableWf (opcodeTable Config.opcAddAB) = true := by decide

/-- Addresses out of order, twice the same, outside IMEM, and a listed byte equal to the unlisted one. -/
theorem test_memory_wf_refuses :
    ¬ Memory.wf [(2, 1), (1, 1)] ∧ ¬ Memory.wf [(1, 1), (1, 2)] ∧ ¬ Memory.wf [(65536, 1)] ∧ ¬ Memory.wf [(1, 0)] := by
  decide

/-! ### Decoding (30_encoding.md R81, R82) -/

/-- `ADD A, B`: opcode bits 7..0 = 1000 0000. -/
theorem test_decode_addAB : decode [0b10000000, 0b11001011] = .instr .addAB [0b11001011] := by decide

/-- Vectors S4, S5: 0xCB and 0x81 are unimplemented. -/
theorem test_decode_rejects : decode [0xCB] = .rejected (.unimplementedOpcode 0xCB) ∧
    decode [0x81] = .rejected (.unimplementedOpcode 0x81) := by decide

theorem test_decodeTableWord : decodeTableWord 8 0x80 = some .addAB ∧ decodeTableWord 8 0x00 = none := by decide

/-- The fetch word runs as the first instruction after reset (vector S1: pc = 0101, a = 00, f = 80). -/
theorem test_withFetchWord_runs : (nextOf (step (State.reset.withFetchWord 8 0x80))).map
    (fun t => (t.regs.pc, t.regs.a, t.regs.f, t.phase)) = some (0x0101, 0x00, 0x80, .run) := by decide

/-! ### ADD A, B (two) -/

/-- Vector X4: stale Z, N, C cleared, H set, low nibble kept. -/
theorem test_execAddAB_flags : (nextOf (exec .addAB (testState 0x0F 0x01 0xFF 0x0100 []))).map
    (fun t => (t.regs.a, t.regs.f, t.regs.b, t.regs.pc)) = some (0x10, 0x2F, 0x01, 0x0100) := by decide

/-- Vector X5: the sum wraps, N cleared, Z, H and C set. -/
theorem test_execAddAB_wraps : (nextOf (exec .addAB (testState 0xFF 0x01 0x50 0x0100 []))).map
    (fun t => (t.regs.a, t.regs.f)) = some (0x00, 0xB0) := by decide

/-! ### Shared operations -/

/-- Vectors A11 (carry only), A4 (no overflow flag), A9 (no carry at 0xFF). -/
theorem test_add8 : alu .add8 0xF0 0x20 = ⟨0x10, false, false, false, true⟩ ∧
    alu .add8 0x7F 0x01 = ⟨0x80, false, false, true, false⟩ ∧ alu .add8 0xFE 0x01 = ⟨0xFF, false, false, false, false⟩ := by
  decide

/-- Vectors F4, F6: the low nibble and the other flags are kept. -/
theorem test_setFlag : (({ RegisterFile.reset with f := 0x0F }).setFlag .n true).f = 0x4F ∧
    (({ RegisterFile.reset with f := 0xA5 }).setFlag .z false).f = 0x25 := by decide

/-- Vectors W1, W8: high byte first, a wider value reduced. -/
theorem test_wide : ({ RegisterFile.reset with b := 0xAB, c := 0xCD }).readWide .bc = 0xABCD ∧
    (RegisterFile.reset.writeWide .hl 0x12345).h = 0x23 ∧ (RegisterFile.reset.writeWide .hl 0x12345).l = 0x45 := by decide

/-- Vector S2: pc wraps. -/
theorem test_step_wraps_pc : (nextOf (step (testState 0 0 0 0xFFFF [(0xFFFF, 0x80)]))).map (fun t => t.regs.pc) =
    some 0x0000 := by decide

/-- Vector S3: the fault is precise. -/
theorem test_step_faults : (nextOf (step (testState 0x12 0 0 0x0200 [(0x0200, 0x00)]))).map
    (fun t => (t.phase, t.faultCause, t.faultPc, t.faultOpcode, t.regs.pc, t.regs.a)) =
      some (.fault, 1, 0x0200, 0x00, 0x0200, 0x12) := by decide

/-- R86, R87: case of register names, the synonym, a data byte; the mnemonic has one spelling. -/
theorem test_assemble : assemble ['A', 'D', 'D', ' ', 'a', ',', ' ', 'B'] = some [0x80] ∧
    assemble ['a', 'd', 'd', '_', 'a', '_', 'b'] = some [0x80] ∧
    assemble ['.', 'b', 'y', 't', 'e', ' ', '0', 'x', 'C', 'B'] = some [0xCB] ∧
    assemble ['A', 'D', 'D', ' ', 'B', ',', ' ', 'A'] = none := by decide

/-! ### Witnesses: a concrete state and operands that meet the hypotheses of each statement -/

/-- A state in RUN on the opcode. -/
def onOpcode : State := testState 0x0F 0x01 0x00 0x0100 [(0x0100, 0x80)]

/-- A state in RUN on another byte. -/
def onOther : State := testState 0x0F 0x01 0x00 0x0100 [(0x0100, 0xCB)]

/-- A state in FAULT: the one after `onOther`. -/
def inFault : State := raiseFault .unimplementedOpcode 0x0100 0xCB onOther

/-- OnlyResetLeavesFault, NoStepExactlyInFault. -/
theorem witness_fault : inFault.phase = .fault ∧ (applyMove .reset inFault).phase = .run ∧
    (applyMove (.load16 .pc 0x0200) inFault).phase = .fault := by decide

/-- OnlyUnimplementedByteEntersFault, AdmittedSetIsTheTable, UnimplementedOpcodeFaultIsPrecise, EveryStepInRunCompletes,
FaultRecordIsUnreadInRun, RunNeverEndsOrFaults: RUN on either kind of byte. -/
theorem witness_run : onOther.phase = .run ∧ onOther.imem.read onOther.regs.pc ≠ 0x80 ∧ onOpcode.phase = .run ∧
    onOpcode.imem.read onOpcode.regs.pc = Config.opcAddAB := by decide

/-- StepRunsTheDecodedInstruction. -/
theorem witness_decoded : onOpcode.phase = .run ∧ decode [onOpcode.imem.read onOpcode.regs.pc] = .instr .addAB [] := by decide

theorem onOpcode_steps : step onOpcode = .next ((onOpcode.advancePc 1).setRegs (addAB (onOpcode.advancePc 1).regs)) :=
  stubStep_admitted _ _ (by decide) (by decide)

theorem onOther_steps : step onOther = .next inFault := stubStep_unimplemented _ _ (by decide) (by decide)

/-- PcAdvancesByOneOrStays, StepFrame, StubInvariantKeptByStep: a step to RUN and a step to FAULT from states that meet the
invariant. -/
theorem witness_steps : StubInv onOpcode ∧ StubInv onOther ∧
    (∃ t, step onOpcode = .next t ∧ t.phase = .run) ∧ ∃ t, step onOther = .next t ∧ t.phase = .fault :=
  ⟨⟨by decide, (fun h => by cases h), (fun h => by cases h)⟩, ⟨by decide, (fun h => by cases h), (fun h => by cases h)⟩,
    ⟨_, onOpcode_steps, by decide⟩, ⟨_, onOther_steps, by decide⟩⟩

/-- The invariant is met in FAULT too; HostMovesKeepRecordsSound. -/
theorem witness_stubInv_in_fault : inFault.phase = .fault ∧ StubInv inFault :=
  ⟨rfl, by decide, fun _ => by decide, fun _ => by decide⟩

/-- PcAdvancesByOneOrStays, second clause. -/
theorem witness_exec : ∃ t, exec .addAB onOpcode = .next t := ⟨_, rfl⟩

/-- StepReadsOnlyTheByteAtPc: another IMEM with the same byte at pc. -/
theorem witness_other_imem : Memory.read [(0x0100, 0x80), (0x0200, 0x12)] onOpcode.regs.pc = onOpcode.imem.read onOpcode.regs.pc ∧
    onOpcode.imem ≠ [(0x0100, 0x80), (0x0200, 0x12)] := by decide

/-- BootHoldsTheLastLoads: a register that is not loaded (again), of each width. -/
theorem witness_not_loaded : (∀ x ∈ [((.inl .a : Reg8 ⊕ Reg16), 5)], x.1 ≠ .inl .b) ∧
    ∀ x ∈ [((.inl .a : Reg8 ⊕ Reg16), 5)], x.1 ≠ .inr .sp := by decide

/-- BootHoldsTheLastLoads: a loaded register keeps its last value while another is loaded after it (truncated: 0x112 to 0x12). -/
theorem test_boot_last_loads :
    (boot [] [(.inl .a, 7), (.inl .a, 0x112), (.inr .pc, 0x0200), (.inl .b, 5)]).regs =
      { RegisterFile.reset with a := 0x12, b := 0x05, pc := 0x0200 } := by decide

/-- FirstStepAfterBoot: both kinds of byte at 0x0100. -/
theorem witness_boot : (Memory.ofCells [(0x0100, 0x80)]).read 0x0100 = 0x80 ∧ (Memory.ofCells []).read 0x0100 ≠ 0x80 := by
  decide

/-- InstancesAreIndependent. -/
theorem witness_instances : (0 : Nat) ≠ 1 ∧ applyMoveAt 1 .step [onOther, onOther] = [onOther, inFault] := by decide

/-- HostLoadChangesOnlyThatRegister, WritesTruncateToWidth, WriteWideSplitsTheValue: other registers. -/
theorem witness_other_registers : (Reg8.b ≠ .a) ∧ (Reg16.sp ≠ .pc) ∧ (Reg8.b ≠ (GReg.a).toReg8) ∧
    Reg8.d ≠ Pair.bc.hi.toReg8 ∧ Reg8.d ≠ Pair.bc.lo.toReg8 := by decide

/-- SetFlagWritesOneBit, FlagsAreIndependent: a flag already set, and another flag. -/
theorem witness_flags : ({ RegisterFile.reset with f := 0x80 }).readFlag .z = true ∧ FlagBit.c ≠ .z := by decide

/-- Add8Laws: operands that agree in the low nibble alone. -/
theorem witness_low_nibbles : lowNibble 0x1F = lowNibble 0x2F ∧ (0x1F : Byte) ≠ 0x2F := by decide

/-- DecodeEncodeAgree: both sides hold of a word, and neither of another. -/
theorem witness_decode : decodeWith 0x80 [0x80, 0x01] = .instr .addAB [0x01] ∧ [0x80, 0x01] = encodeWith 0x80 .addAB ++ [0x01] ∧
    decodeWith 0x80 [0x81] ≠ .instr .addAB [] := by decide

/-- AssemblerAcceptsExactlyTheSpellings: digits at the ends of their ranges. -/
theorem witness_digits : hexDigit '0' = some 0 ∧ hexDigit '9' = some 9 ∧ hexDigit 'A' = some 10 ∧ hexDigit 'F' = some 15 ∧
    hexDigit 'a' = some 10 ∧ hexDigit 'f' = some 15 ∧ 16 * 0 + 15 ≠ 0x80 := by decide

/-- AssemblerAcceptsExactlyTheSpellings: where its clauses meet, `.byte 0x80`, and a line of neither kind. -/
theorem witness_refused_lines : hexDigit '8' = some 8 ∧ hexDigit '0' = some 0 ∧ 16 * 8 + 0 = 0x80 ∧
    assemble ['.', 'b', 'y', 't', 'e', ' ', '0', 'x', '8', '0'] = none ∧ assemble ['N', 'O', 'P'] ≠ some [0x80] ∧
    (∀ (x y : Char) (p q : Nat), hexDigit x = some p → hexDigit y = some q →
      (['N', 'O', 'P'] : List Char) ≠ ['.', 'b', 'y', 't', 'e', ' ', '0', 'x', x, y]) ∧ assemble ['N', 'O', 'P'] = none :=
  ⟨by decide, by decide, by decide, by decide, by decide, fun _ _ _ _ _ _ h => by simp at h, by decide⟩

/-- CanonicalImemIsUnique. -/
theorem witness_canonical : Memory.wf [(0x0100, 0x80), (0xFFFF, 0x01)] := by decide

/-- HostMovesKeepRecordsSound: FAULT is reached. -/
theorem witness_reachable : Reachable (applyMove .step State.reset) ∧ (applyMove .step State.reset).phase = .fault :=
  ⟨.move _ _ .reset, by decide⟩

/-- LowNibbleOfFStays. -/
theorem witness_no_load_of_f : (∀ v, HostMove.step ≠ .load8 .f v) ∧ HostMove.step ≠ .reset ∧ lowNibble onOpcode.regs.f = 0 :=
  ⟨(fun _ h => by cases h), by decide, by decide⟩

/-- RunFrame. -/
theorem witness_run_next : ∃ t, runFor 1 onOpcode = .next t := ⟨_, by rw [runFor_succ_of_next onOpcode_steps]; rfl⟩

/-- RunOverAdmittedBytes, RunStopsAtTheFirstOtherByte: one opcode, then another byte, across the top of IMEM. -/
theorem witness_bytes : (testState 0 3 0 0xFFFF [(0xFFFF, 0x80), (0x0000, 0xCB)]).phase = .run ∧
    (∀ k, k < 1 → (testState 0 3 0 0xFFFF [(0xFFFF, 0x80), (0x0000, 0xCB)]).imem.read (0xFFFF + BitVec.ofNat 16 k) =
      Config.opcAddAB) ∧
    (testState 0 3 0 0xFFFF [(0xFFFF, 0x80), (0x0000, 0xCB)]).imem.read (0xFFFF + BitVec.ofNat 16 1) ≠ Config.opcAddAB := by
  decide

end Sys2Proof.Tests
end

/-! PROOFS. The family 10_state.md. First the rules that later proofs use, one per port, view or flag operation: what it
reads or writes, what it leaves. Then the obligations, assembled from them. -/

namespace Sys2Proof.Machine

/-! ### Ports of the register file (10_state.md R22, R24, R25) -/

section Ports

variable (x : RegisterFile)

theorem read8_assign8 (r r' : Reg8) (v : Nat) :
    (x.assign8 r v).read8 r' = if r' = r then BitVec.ofNat 8 v else x.read8 r' :=
  read8_put8 x r r' _

theorem read16_assign16 (r r' : Reg16) (v : Nat) :
    (x.assign16 r v).read16 r' = if r' = r then BitVec.ofNat 16 v else x.read16 r' :=
  read16_put16 x r r' _

theorem read8_write8 (r : GReg) (r' : Reg8) (v : Nat) :
    (x.write8 r v).read8 r' = if r' = r.toReg8 then BitVec.ofNat 8 v else x.read8 r' :=
  read8_assign8 x r.toReg8 r' v

@[simp] theorem read16_write8 (r : GReg) (v : Nat) (r' : Reg16) : (x.write8 r v).read16 r' = x.read16 r' :=
  read16_put8 x r.toReg8 _ r'

@[simp] theorem read8_write16 (r : Reg16) (v : Nat) (r' : Reg8) : (x.write16 r v).read8 r' = x.read8 r' :=
  read8_put16 x r _ r'

theorem read16_write16 (r r' : Reg16) (v : Nat) :
    (x.write16 r v).read16 r' = if r' = r then BitVec.ofNat 16 v else x.read16 r' :=
  read16_assign16 x r r' v

end Ports

/-! ### The wide view (10_state.md R30 to R32) -/

section WideView

variable (x : RegisterFile) (p : Pair)

/-- The high byte lies above the low one, so "or" is "plus". -/
theorem concatBytes_toNat_eq_add (hi lo : Byte) : (concatBytes hi lo).toNat = 256 * hi.toNat + lo.toNat := by
  rw [concatBytes_toNat, ← Nat.shiftLeft_add_eq_or_of_lt lo.isLt, Nat.shiftLeft_eq, Nat.mul_comm]

theorem readWide_toNat :
    (x.readWide p).toNat = 256 * (x.read8 p.hi.toReg8).toNat + (x.read8 p.lo.toReg8).toNat :=
  concatBytes_toNat_eq_add _ _

/-- A register that a port of `write8` may or may not have written, as a number. -/
theorem read8_write8_toNat (r r' : GReg) (v : Nat) :
    ((x.write8 r v).read8 r'.toReg8).toNat = if r = r' then v % 256 else (x.read8 r'.toReg8).toNat := by
  simp only [read8_write8, GReg.toReg8_inj, eq_comm (a := r'), apply_ite BitVec.toNat, BitVec.toNat_ofNat]

theorem writeWide_read8_hi (v : Nat) :
    (x.writeWide p v).read8 p.hi.toReg8 = BitVec.ofNat 8 ((v % 2 ^ 16) >>> 8) := by
  have ne : p.hi.toReg8 ≠ p.lo.toReg8 := fun eq => p.hi_ne_lo (GReg.toReg8_inj.1 eq)
  rw [writeWide_eq, read8_put8, if_neg ne, read8_put8, if_pos rfl]

theorem writeWide_read8_lo (v : Nat) :
    (x.writeWide p v).read8 p.lo.toReg8 = BitVec.ofNat 8 ((v % 2 ^ 16) &&& 0xFF) := by
  rw [writeWide_eq, read8_put8, if_pos rfl]

theorem writeWide_read8_other {r : Reg8} (notHi : r ≠ p.hi.toReg8) (notLo : r ≠ p.lo.toReg8) (v : Nat) :
    (x.writeWide p v).read8 r = x.read8 r := by
  rw [writeWide_eq, read8_put8, if_neg notLo, read8_put8, if_neg notHi]

@[simp] theorem read16_writeWide (v : Nat) (r : Reg16) : (x.writeWide p v).read16 r = x.read16 r := by
  rw [writeWide_eq, read16_put8, read16_put8]

end WideView

/-! ### Flags as bits of f (10_state.md R34 to R36, R38) -/

section FlagBits

variable (X : FlagBit) (v : Byte)

theorem FlagBit.mask_eq_twoPow : X.mask = BitVec.twoPow 8 X.bit := by cases X <;> rfl

theorem FlagBit.bit_inj {X Y : FlagBit} : X.bit = Y.bit ↔ X = Y := by cases X <;> cases Y <;> decide

theorem FlagBit.four_le_bit : 4 ≤ X.bit := by cases X <;> decide

theorem FlagBit.bit_lt_eight : X.bit < 8 := by cases X <;> decide

theorem getLsbD_mask (i : Nat) : X.mask.getLsbD i = decide (i = X.bit) := by
  rw [X.mask_eq_twoPow, BitVec.getLsbD_twoPow, decide_eq_true X.bit_lt_eight, Bool.true_and]
  exact decide_eq_decide.2 eq_comm

/-- Testing a flag's mask reads its bit. -/
theorem and_mask_ne_zero_eq_getLsbD : ((v &&& X.mask) != 0) = v.getLsbD X.bit := by
  rw [X.mask_eq_twoPow, BitVec.and_twoPow]
  split
  next isSet =>
    have twoPow_ne_zero : BitVec.twoPow 8 X.bit ≠ 0 := by cases X <;> decide
    rw [isSet, bne_iff_ne.2 twoPow_ne_zero]
  next isClear => simp [isClear]

theorem readFlag_eq_getLsbD (x : RegisterFile) : x.readFlag X = x.f.getLsbD X.bit :=
  and_mask_ne_zero_eq_getLsbD X x.f

/-- The low nibble is bits 3..0. -/
theorem getLsbD_lowNibble (i : Nat) : (lowNibble v).getLsbD i = (decide (i < 4) && v.getLsbD i) := by
  have mask : (0x0F : Byte) = (BitVec.allOnes 4).setWidth 8 := by decide
  rw [lowNibble, mask, BitVec.getLsbD_and, BitVec.getLsbD_setWidth, BitVec.getLsbD_allOnes]
  by_cases low : i < 4
  · simp [low, show i < 8 by omega]
  · simp [low]

/-- `setFlag` writes its own bit of f and no other. -/
theorem getLsbD_withFlag (t : Bool) {i : Nat} (lt : i < 8) :
    (withFlag v X t).getLsbD i = if i = X.bit then t else v.getLsbD i := by
  cases t with
  | true =>
    rw [withFlag_true, BitVec.getLsbD_or, getLsbD_mask]
    by_cases own : i = X.bit <;> simp [own]
  | false =>
    rw [withFlag_false, BitVec.getLsbD_and, BitVec.getLsbD_not, getLsbD_mask]
    by_cases own : i = X.bit <;> simp [own, lt]

/-- `setFlag`, read at the bit of a flag. -/
theorem getLsbD_withFlag_bit (Y : FlagBit) (t : Bool) :
    (withFlag v X t).getLsbD Y.bit = if Y = X then t else v.getLsbD Y.bit := by
  simp only [getLsbD_withFlag X v t Y.bit_lt_eight, FlagBit.bit_inj]

@[simp] theorem lowNibble_withFlag (t : Bool) : lowNibble (withFlag v X t) = lowNibble v := by
  apply BitVec.eq_of_getLsbD_eq
  intro i lt
  rw [getLsbD_lowNibble, getLsbD_lowNibble, getLsbD_withFlag X v t lt]
  by_cases low : i < 4
  · have other : i ≠ X.bit := by have := X.four_le_bit; omega
    rw [if_neg other]
  · simp [low]

@[simp] theorem lowNibble_withFlags (z n h cy : Bool) : lowNibble (withFlags v z n h cy) = lowNibble v := by
  simp [withFlags]

/-- The value that a write of all four flags gives the flag `X`. -/
def FlagBit.select (z n h cy : Bool) : FlagBit → Bool
  | .z => z
  | .n => n
  | .h => h
  | .c => cy

/-- After all four flags are written nothing of the old flags is left. -/
theorem getLsbD_withFlags (z n h cy : Bool) : (withFlags v z n h cy).getLsbD X.bit = X.select z n h cy := by
  simp only [withFlags, getLsbD_withFlag_bit]
  cases X <;> rfl

end FlagBits

/-! ### `ADD A, B` and f (41_arithmetic.md R120) -/

theorem exec_addAB (s : State) : exec .addAB s = .next (s.setRegs (addAB s.regs)) := rfl

/-- Of the old f, only the low nibble reaches the new one, and nothing of it reaches another register. -/
theorem addAB_with_f (x : RegisterFile) (v : Byte) :
    addAB { x with f := v } = { addAB x with
      f := withFlags v (alu .add8 x.a x.b).z (alu .add8 x.a x.b).n (alu .add8 x.a x.b).h (alu .add8 x.a x.b).cy } := by
  rw [addAB_eq, addAB_eq]

theorem addAB_readFlag (x : RegisterFile) (X : FlagBit) :
    (addAB x).readFlag X =
      X.select (alu .add8 x.a x.b).z (alu .add8 x.a x.b).n (alu .add8 x.a x.b).h (alu .add8 x.a x.b).cy := by
  rw [readFlag_eq_getLsbD, addAB_eq, getLsbD_withFlags]

theorem addAB_lowNibble (x : RegisterFile) : lowNibble (addAB x).f = lowNibble x.f := by
  rw [addAB_eq, lowNibble_withFlags]

end Sys2Proof.Machine

/-! ### The obligations of 10_state.md -/

namespace Sys2Proof

open Sys2Proof.Machine

/-- Settles O11: the two bytes do not overlap, so the "or" of R30 is a sum. -/
theorem readWideIsHighThenLow : Obligations.ReadWideIsHighThenLow := fun s p =>
  ⟨concatBytes_toNat _ _, readWide_toNat s.regs p, rfl, rfl⟩

/-- Settles O13: the view is computed from the two registers, each of which reads as last written. -/
theorem wideViewFollowsByteWrites : Obligations.WideViewFollowsByteWrites := by
  intro x p r v
  rw [readWide_toNat, read8_write8_toNat, read8_write8_toNat]

/-- Settles O14: `writeWide` is two writes of different registers. -/
theorem writeWideSplitsTheValue : Obligations.WriteWideSplitsTheValue := by
  intro x p v
  refine ⟨?_, ?_, fun r notHi notLo => writeWide_read8_other x p notHi notLo v, read16_writeWide x p v⟩
  · rw [writeWide_read8_hi, BitVec.toNat_ofNat, Nat.shiftRight_eq_div_pow]
    omega
  · have lowByte : v % 2 ^ 16 &&& 0xFF = v % 2 ^ 16 % 2 ^ 8 := Nat.and_two_pow_sub_one_eq_mod _ 8
    rw [writeWide_read8_lo, BitVec.toNat_ofNat, lowByte]
    omega

/-- Settles O16: each mask is the one bit that `readFlag` reads, and that bit lies above the low nibble. -/
theorem flagLayout : Obligations.FlagLayout := by
  intro x
  refine ⟨⟨readFlag_eq_getLsbD .z x, readFlag_eq_getLsbD .n x, readFlag_eq_getLsbD .h x, readFlag_eq_getLsbD .c x⟩,
    ⟨rfl, rfl, rfl, rfl⟩, fun X => ⟨by cases X <;> rfl, ?_⟩, fun X v => ?_⟩
  · rw [readFlag_eq, bne_iff_ne]
  · have aboveNibble : (lowNibble v).getLsbD X.bit = false := by
      simp [getLsbD_lowNibble, Nat.not_lt.2 X.four_le_bit]
    calc (x.put8 .f (x.f ^^^ lowNibble v)).readFlag X
        = (x.f ^^^ lowNibble v).getLsbD X.bit := readFlag_eq_getLsbD X _
      _ = x.f.getLsbD X.bit := by rw [BitVec.getLsbD_xor, aboveNibble, Bool.xor_false]
      _ = x.readFlag X := (readFlag_eq_getLsbD X x).symm

/-- Settles O19: `ADD A, B`, the one instruction, gives every flag a value computed from a and b, and of f keeps the low
nibble alone. -/
theorem flagsAreWrittenAndNeverRead : Obligations.FlagsAreWrittenAndNeverRead := by
  refine ⟨fun i s v => ?_, fun s X => ⟨congrArg Reading.truth (readFlag_eq_getLsbD X s.regs), rfl⟩⟩
  cases i with
  | addAB =>
    refine ⟨_, _, exec_addAB s, exec_addAB _, fun X => ?_, addAB_lowNibble _, ?_⟩
    · exact (addAB_readFlag { s.regs with f := v } X).trans (addAB_readFlag s.regs X).symm
    · simp only [State.setRegs, addAB_with_f]

/-- Settles O10: a read after a write gives what `BitVec.ofNat` stored, and every other register is as before. -/
theorem writesTruncateToWidth : Obligations.WritesTruncateToWidth := by
  intro x
  refine ⟨fun r v => ?_, fun r v => ?_, fun r v => ⟨?_, fun r' ne => ?_, read16_write8 x r v⟩,
    fun r v => ⟨?_, read8_write16 x r v, fun r' ne => ?_⟩, fun r => (x.read8 r).isLt, fun r => (x.read16 r).isLt⟩
  · rw [read8_assign8, if_pos rfl, BitVec.toNat_ofNat]
  · rw [read16_assign16, if_pos rfl, BitVec.toNat_ofNat]
  · rw [read8_write8, if_pos rfl, BitVec.toNat_ofNat]
  · rw [read8_write8, if_neg ne]
  · rw [read16_write16, if_pos rfl, BitVec.toNat_ofNat]
  · rw [read16_write16, if_neg ne]

end Sys2Proof

/-! ### The ALU: `ADD8`, field by field (40_alu_flag_computer.md R103 to R107) -/

namespace Sys2Proof.Machine

variable (x y : Byte)

theorem add8_res_toNat : (alu .add8 x y).res.toNat = (x.toNat + y.toNat) % 256 := by
  rw [add8_res_eq_add, BitVec.toNat_add]

theorem add8_z_iff_res_eq_zero : (alu .add8 x y).z = true ↔ (alu .add8 x y).res = 0 := beq_iff_eq

theorem add8_z_iff : (alu .add8 x y).z = true ↔ (x.toNat + y.toNat) % 256 = 0 := by
  rw [add8_z_iff_res_eq_zero, ← BitVec.toNat_inj, add8_res_toNat, BitVec.ofNat_eq_ofNat, BitVec.toNat_zero]

@[simp] theorem add8_n : (alu .add8 x y).n = false := rfl

theorem add8_h_iff : (alu .add8 x y).h = true ↔ (x &&& 0x0F).toNat + (y &&& 0x0F).toNat > 0x0F := decide_eq_true_iff

theorem add8_cy_iff : (alu .add8 x y).cy = true ↔ x.toNat + y.toNat > 0xFF := decide_eq_true_iff

end Sys2Proof.Machine

/-! ### The obligations of 40_alu_flag_computer.md -/

namespace Sys2Proof

open Sys2Proof.Machine

/-- Settles O20: `ADD8` is the one admitted operation; its Z is a test of the wrapped result, its H and C of the operands. -/
theorem add8ResultAndFlags : Obligations.Add8ResultAndFlags := by
  intro op x y
  cases op with
  | add8 => exact ⟨add8_res_toNat x y, add8_z_iff x y, add8_n x y, add8_h_iff x y, add8_cy_iff x y⟩

/-- Settles O21: five closed sums, evaluated. -/
theorem additionTableRows : Obligations.AdditionTableRows := by
  unfold Obligations.AdditionTableRows
  decide

end Sys2Proof

/-! ### A committed result and `ADD A, B`: destination, flags and frame (41_arithmetic.md R120) -/

namespace Sys2Proof.Machine

variable (x : RegisterFile)

/-- A commit leaves every 8-bit register but f and the destination. -/
theorem read8_commit_of_ne {dst : GReg} (r : AluResult) {r' : Reg8} (notDst : r' ≠ dst.toReg8) (notF : r' ≠ .f) :
    (x.commit dst r).read8 r' = x.read8 r' := by
  rw [commit_eq, read8_put8, if_neg notDst, read8_put8, if_neg notF]

@[simp] theorem read16_commit (dst : GReg) (r : AluResult) (r' : Reg16) :
    (x.commit dst r).read16 r' = x.read16 r' := by
  rw [commit_eq, read16_put8, read16_put8]

theorem addAB_a : (addAB x).a = (alu .add8 x.a x.b).res := by rw [addAB_eq, add8_res_eq_add]

theorem addAB_readFlag_z_iff : (addAB x).readFlag .z = true ↔ (addAB x).a = 0 := by
  rw [addAB_readFlag, addAB_a]
  exact add8_z_iff_res_eq_zero x.a x.b

theorem addAB_readFlag_n : (addAB x).readFlag .n = false := addAB_readFlag x .n

theorem addAB_readFlag_h_iff :
    (addAB x).readFlag .h = true ↔ (x.a &&& 0x0F).toNat + (x.b &&& 0x0F).toNat > 0x0F := by
  rw [addAB_readFlag]
  exact add8_h_iff x.a x.b

theorem addAB_readFlag_c_iff : (addAB x).readFlag .c = true ↔ x.a.toNat + x.b.toNat > 0xFF := by
  rw [addAB_readFlag]
  exact add8_cy_iff x.a x.b

end Sys2Proof.Machine

/-! ### The obligations of 41_arithmetic.md -/

namespace Sys2Proof

open Sys2Proof.Machine

/-- Settles O25: the next state differs in the register file alone, whose a and f are the committed sum and its flags. -/
theorem addABCompletes : Obligations.AddABCompletes := by
  refine ⟨fun opc => rfl, fun s => ⟨_, exec_addAB s, ?_⟩⟩
  have result : (addAB s.regs).a.toNat = (s.regs.a.toNat + s.regs.b.toNat) % 256 := by
    rw [addAB_a, add8_res_toNat]
  have frame8 : ∀ r, r ≠ .a → r ≠ .f → (addAB s.regs).read8 r = s.regs.read8 r :=
    fun r notA notF => read8_commit_of_ne s.regs _ notA notF
  have frame16 : ∀ r, (addAB s.regs).read16 r = s.regs.read16 r := read16_commit s.regs .a _
  exact ⟨result, addAB_readFlag_z_iff s.regs, addAB_readFlag_n s.regs, addAB_readFlag_h_iff s.regs,
    addAB_readFlag_c_iff s.regs, addAB_lowNibble s.regs, frame8, frame16, rfl, rfl, rfl, rfl, fun k => rfl⟩

end Sys2Proof

/-! PROOFS. The family 'other': decoder and assembler, the stub's step, the host's moves, IMEM, invariants and runs. Each
group first says once what its functions do; its obligations are assembled from that. -/

/-! ### The decoder (30_encoding.md R81 to R85) -/

namespace Sys2Proof

open Sys2Proof.Machine

variable (opc op : Byte) (rest : List Byte)

/-- The first byte alone decides. -/
theorem decodeWith_cons : decodeWith opc (op :: rest) =
    if op = opc then .instr .addAB rest else .rejected (.unimplementedOpcode op) := by
  rw [decodeWith, lookupOpcode_eq]
  by_cases same : op = opc
  · rw [if_pos same, if_pos same]
  · rw [if_neg same, if_neg same]

theorem decodeWith_cons_eq_instr_iff (i : Instr) (rest' : List Byte) :
    decodeWith opc (op :: rest) = .instr i rest' ↔ op = opc ∧ rest = rest' := by
  cases i with
  | addAB => by_cases same : op = opc <;> simp [decodeWith_cons, same]

theorem encodeWith_append (i : Instr) : encodeWith opc i ++ rest = opc :: rest := by
  cases i with
  | addAB => rfl

end Sys2Proof

/-! ### One step of the stub (42_dispatch_stub.md R131 to R135) -/

namespace Sys2Proof.Machine

/-- Where a step on `OPC_ADD_A_B` leads: pc advanced, then the handler (R132). -/
def State.afterAddAB (s : State) : State := (s.advancePc 1).setRegs (addAB (s.advancePc 1).regs)

/-- Where a step on any other byte leads (60_exceptions.md R152). -/
def State.afterFault (s : State) : State := raiseFault .unimplementedOpcode s.regs.pc s.fetch s

theorem Phase.ne_fault_of_run {p : Phase} (run : p = .run) : p ≠ .fault := by rw [run]; decide

section Steps

variable (s : State)

theorem step_in_fault (fault : s.phase = .fault) : step s = .fault .noStepInFault :=
  stubStep_in_fault _ s fault

theorem step_admitted (run : s.phase = .run) (byte : s.fetch = Config.opcAddAB) : step s = .next s.afterAddAB :=
  stubStep_admitted _ s run byte

theorem step_unimplemented (run : s.phase = .run) (byte : s.fetch ≠ Config.opcAddAB) : step s = .next s.afterFault :=
  stubStep_unimplemented _ s run byte

/-- Everything a step that has a next state can do. -/
theorem step_next_cases {s t : State} (h : step s = .next t) :
    s.phase = .run ∧
    ((s.fetch = Config.opcAddAB ∧ t = s.afterAddAB) ∨ (s.fetch ≠ Config.opcAddAB ∧ t = s.afterFault)) :=
  stubStep_next_cases h

/-- Everything a step can do. -/
theorem step_cases :
    (s.phase = .fault ∧ step s = .fault .noStepInFault) ∨
    (s.phase = .run ∧ s.fetch = Config.opcAddAB ∧ step s = .next s.afterAddAB) ∨
    (s.phase = .run ∧ s.fetch ≠ Config.opcAddAB ∧ step s = .next s.afterFault) := by
  cases phase : s.phase with
  | fault => exact .inl ⟨rfl, step_in_fault s phase⟩
  | run =>
    by_cases byte : s.fetch = Config.opcAddAB
    · exact .inr (.inl ⟨rfl, byte, step_admitted s phase byte⟩)
    · exact .inr (.inr ⟨rfl, byte, step_unimplemented s phase byte⟩)

/-- Everything a step that the host invokes can do. -/
theorem hostStep_cases :
    (s.phase = .fault ∧ hostStep s = s) ∨
    (s.phase = .run ∧ s.fetch = Config.opcAddAB ∧ hostStep s = s.afterAddAB) ∨
    (s.phase = .run ∧ s.fetch ≠ Config.opcAddAB ∧ hostStep s = s.afterFault) := by
  rcases step_cases s with ⟨fault, -⟩ | ⟨run, byte, -⟩ | ⟨run, byte, -⟩
  · exact .inl ⟨fault, hostStep_in_fault s fault⟩
  · exact .inr (.inl ⟨run, byte, hostStep_admitted s run byte⟩)
  · exact .inr (.inr ⟨run, byte, hostStep_unimplemented s run byte⟩)

@[simp] theorem afterAddAB_phase : s.afterAddAB.phase = s.phase := rfl
@[simp] theorem afterAddAB_faultCause : s.afterAddAB.faultCause = s.faultCause := rfl
@[simp] theorem afterAddAB_faultPc : s.afterAddAB.faultPc = s.faultPc := rfl
@[simp] theorem afterAddAB_faultOpcode : s.afterAddAB.faultOpcode = s.faultOpcode := rfl
@[simp] theorem afterAddAB_imem : s.afterAddAB.imem = s.imem := rfl

@[simp] theorem afterFault_regs : s.afterFault.regs = s.regs := rfl
@[simp] theorem afterFault_phase : s.afterFault.phase = .fault := rfl
@[simp] theorem afterFault_faultCause : s.afterFault.faultCause = 1 := rfl
@[simp] theorem afterFault_faultPc : s.afterFault.faultPc = s.regs.pc := rfl
@[simp] theorem afterFault_faultOpcode : s.afterFault.faultOpcode = s.imem.read s.regs.pc := rfl
@[simp] theorem afterFault_imem : s.afterFault.imem = s.imem := rfl

end Steps

end Sys2Proof.Machine

/-! ### The invariants, move by move (60_exceptions.md R151, R152, R161) -/

namespace Sys2Proof

open Sys2Proof.Machine

/-- In RUN nothing is asked of the fault record (10_state.md R42). -/
theorem faultRecordSound_of_run {s : State} (run : s.phase = .run) : FaultRecordSound s :=
  fun fault => absurd fault (Phase.ne_fault_of_run run)

theorem faultRecordSound_afterFault {s : State} (byte : s.fetch ≠ Config.opcAddAB) : FaultRecordSound s.afterFault :=
  fun _ => ⟨rfl, byte⟩

/-- In RUN the stub's invariant is the canonical form of IMEM. -/
theorem stubInv_of_run {s : State} (run : s.phase = .run) (wf : s.imem.wf) : StubInv s :=
  ⟨wf, faultRecordSound_of_run run, fun fault => absurd fault (Phase.ne_fault_of_run run)⟩

theorem stubInv_afterFault {s : State} (byte : s.fetch ≠ Config.opcAddAB) (wf : s.imem.wf) : StubInv s.afterFault :=
  ⟨wf, faultRecordSound_afterFault byte, fun _ => ⟨rfl, rfl⟩⟩

@[simp] theorem hostStep_imem (s : State) : (hostStep s).imem = s.imem := by
  rcases hostStep_cases s with ⟨-, eq⟩ | ⟨-, -, eq⟩ | ⟨-, -, eq⟩ <;> rw [eq]
  · rw [afterAddAB_imem]
  · rw [afterFault_imem]

theorem hostStep_faultRecordSound {s : State} (sound : FaultRecordSound s) : FaultRecordSound (hostStep s) := by
  rcases hostStep_cases s with ⟨-, eq⟩ | ⟨run, -, eq⟩ | ⟨-, byte, eq⟩ <;> rw [eq]
  · exact sound
  · exact faultRecordSound_of_run run
  · exact faultRecordSound_afterFault byte

/-- Only "supply IMEM" changes IMEM, and what it supplies is canonical. -/
theorem applyMove_imem_wf (m : HostMove) {s : State} (wf : s.imem.wf) : (applyMove m s).imem.wf := by
  cases m with
  | supply cells => exact ofCells_wf cells
  | step => rw [applyMove, hostStep_imem]; exact wf
  | reset | load8 | load16 | read => exact wf

theorem applyMove_faultRecordSound (m : HostMove) {s : State} (sound : FaultRecordSound s) :
    FaultRecordSound (applyMove m s) := by
  cases m with
  | reset => exact faultRecordSound_of_run (resetBlock_phase s)
  | step => exact hostStep_faultRecordSound sound
  | supply | load8 | load16 | read => exact sound

/-- Settles O30: both sides say that the first byte is the opcode and the others are the rest. -/
theorem decodeEncodeAgree : Obligations.DecodeEncodeAgree := by
  intro opc bytes rest i
  have wf : i.wf = true := by cases i; rfl
  rw [encodeWith_append, and_iff_right wf]
  cases bytes with
  | nil => simp [decodeWith]
  | cons op bytes => rw [decodeWith_cons_eq_instr_iff, List.cons.injEq]

/-- Settles O44: a step stays in RUN, where only IMEM matters, or is the fault, whose record is what the invariant asks. -/
theorem stubInvariantKeptByStep : Obligations.StubInvariantKeptByStep := by
  intro s t inv h
  obtain ⟨wf, -, -⟩ := inv
  obtain ⟨run, ⟨-, rfl⟩ | ⟨byte, rfl⟩⟩ := step_next_cases h
  · exact stubInv_of_run run wf
  · exact stubInv_afterFault byte wf

/-- Settles O45: each move keeps both properties, and reset, where the moves start, has them. -/
theorem hostMovesKeepRecordsSound : Obligations.HostMovesKeepRecordsSound := by
  refine ⟨fun m s wf sound => ⟨applyMove_imem_wf m wf, applyMove_faultRecordSound m sound⟩, fun s reached => ?_⟩
  induction reached with
  | reset => exact ⟨reset_imem_wf, faultRecordSound_of_run rfl⟩
  | move m s _ ih =>
    obtain ⟨wf, sound⟩ := ih
    exact ⟨applyMove_imem_wf m wf, applyMove_faultRecordSound m sound⟩

/-- Settles O43: reset is in RUN, with the empty IMEM. -/
theorem stubInvariantAtReset : Obligations.StubInvariantAtReset := stubInv_of_run rfl reset_imem_wf

/-- Settles O29: the decoder compares the first byte with the one opcode, and the stub faults on what it rejects. -/
theorem admittedSetIsTheTable : Obligations.AdmittedSetIsTheTable := by
  intro opc
  have distinct : opcodeTableWf (opcodeTable opc) = true := by
    simp [opcodeTableWf, opcodesDistinct, instrsDistinct, opcodeTable]
  have complete : ∀ (i : Instr) (s : State), ∃ t, exec i s = .next t := by
    intro i s
    cases i with
    | addAB => exact ⟨_, exec_addAB s⟩
  exact ⟨distinct, rfl, decodeWith_cons opc, complete,
    fun s run byte => ⟨_, stubStep_unimplemented opc s run byte, raiseFault_phase s _ _ _⟩⟩

/-- Settles O31: closed words, evaluated. -/
theorem wordsDecodeAsTheTableSays : Obligations.WordsDecodeAsTheTableSays := by
  unfold Obligations.WordsDecodeAsTheTableSays
  decide

end Sys2Proof

/-! ### Register frame of a step (10_state.md R26, R27, R29, R38) -/

namespace Sys2Proof.Machine

/-- The handler neither reads nor writes pc. -/
theorem addAB_with_pc (x : RegisterFile) (p : Word) : addAB { x with pc := p } = { addAB x with pc := p } := by
  rw [addAB_eq, addAB_eq]

theorem addAB_pc (x : RegisterFile) : (addAB x).pc = x.pc := read16_commit x .a _ .pc

theorem advancePc_eq_setRegs (s : State) (n : Nat) :
    s.advancePc n = s.setRegs { s.regs with pc := s.regs.pc + BitVec.ofNat 16 n } :=
  congrArg s.setRegs (advancePc_regs s n)

/-- So advancing pc before the handler is advancing it after. -/
theorem addAB_advancePc_regs (s : State) (n : Nat) :
    addAB (s.advancePc n).regs = { addAB s.regs with pc := s.regs.pc + BitVec.ofNat 16 n } := by
  rw [advancePc_regs, addAB_with_pc]

theorem afterAddAB_regs (s : State) : s.afterAddAB.regs = { addAB s.regs with pc := s.regs.pc + 1 } :=
  addAB_advancePc_regs s 1

/-- A step on the opcode replaces the register file, and nothing else. -/
theorem afterAddAB_eq_setRegs (s : State) : s.afterAddAB = s.setRegs { addAB s.regs with pc := s.regs.pc + 1 } :=
  congrArg s.setRegs (afterAddAB_regs s)

theorem read8_with_pc (x : RegisterFile) (p : Word) (r : Reg8) :
    ({ x with pc := p } : RegisterFile).read8 r = x.read8 r :=
  read8_put16 x .pc p r

@[simp] theorem afterAddAB_pc (s : State) : s.afterAddAB.regs.pc = s.regs.pc + 1 := by rw [afterAddAB_regs]

@[simp] theorem afterAddAB_sp (s : State) : s.afterAddAB.regs.sp = s.regs.sp := by
  rw [afterAddAB_regs, addAB_eq]

@[simp] theorem afterAddAB_a (s : State) : s.afterAddAB.regs.a = s.regs.a + s.regs.b := by
  rw [afterAddAB_regs, addAB_eq]

@[simp] theorem afterAddAB_lowNibble (s : State) : lowNibble s.afterAddAB.regs.f = lowNibble s.regs.f := by
  rw [afterAddAB_regs, addAB_lowNibble]

theorem afterAddAB_read8 (s : State) {r : Reg8} (notA : r ≠ .a) (notF : r ≠ .f) :
    s.afterAddAB.regs.read8 r = s.regs.read8 r := by
  rw [afterAddAB_regs, read8_with_pc, addAB, read8_commit_of_ne s.regs _ notA notF]

@[simp] theorem afterAddAB_b (s : State) : s.afterAddAB.regs.b = s.regs.b :=
  afterAddAB_read8 s (r := .b) (by decide) (by decide)

/-- A step writes no byte of IMEM (20_memory.md R62). -/
theorem step_imem {s t : State} (h : step s = .next t) : t.imem = s.imem := by
  obtain ⟨-, ⟨-, rfl⟩ | ⟨-, rfl⟩⟩ := step_next_cases h <;> rfl

theorem step_sp {s t : State} (h : step s = .next t) : t.regs.sp = s.regs.sp := by
  obtain ⟨-, ⟨-, rfl⟩ | ⟨-, rfl⟩⟩ := step_next_cases h
  · exact afterAddAB_sp s
  · rfl

theorem step_lowNibble {s t : State} (h : step s = .next t) : lowNibble t.regs.f = lowNibble s.regs.f := by
  obtain ⟨-, ⟨-, rfl⟩ | ⟨-, rfl⟩⟩ := step_next_cases h
  · exact afterAddAB_lowNibble s
  · rfl

theorem step_read8 {s t : State} (h : step s = .next t) {r : Reg8} (notA : r ≠ .a) (notF : r ≠ .f) :
    t.regs.read8 r = s.regs.read8 r := by
  obtain ⟨-, ⟨-, rfl⟩ | ⟨-, rfl⟩⟩ := step_next_cases h
  · exact afterAddAB_read8 s notA notF
  · rfl

/-- In RUN a step has a next state, in FAULT exactly on another byte. -/
theorem step_completes {s : State} (run : s.phase = .run) :
    ∃ t, step s = .next t ∧ (t.phase = .fault ↔ s.fetch ≠ Config.opcAddAB) := by
  by_cases byte : s.fetch = Config.opcAddAB
  · exact ⟨_, step_admitted s run byte, by simp [run, byte]⟩
  · exact ⟨_, step_unimplemented s run byte, by simp [byte]⟩

theorem hostStep_of_next {s t : State} (h : step s = .next t) : hostStep s = t := by
  rw [hostStep, h]

theorem hostStep_phase_eq_fault_iff {s : State} (run : s.phase = .run) :
    (hostStep s).phase = .fault ↔ s.fetch ≠ Config.opcAddAB := by
  obtain ⟨t, next, iff⟩ := step_completes run
  rw [hostStep_of_next next]
  exact iff

@[simp] theorem hostStep_lowNibble (s : State) : lowNibble (hostStep s).regs.f = lowNibble s.regs.f := by
  rcases hostStep_cases s with ⟨-, eq⟩ | ⟨-, -, eq⟩ | ⟨-, -, eq⟩ <;> rw [eq]
  · exact afterAddAB_lowNibble s
  · rw [afterFault_regs]

end Sys2Proof.Machine

/-! ### The obligations about one step -/

namespace Sys2Proof

open Sys2Proof.Machine

/-- Settles O33: a decoded instruction is what `exec` runs, with pc past it. -/
theorem stepRunsTheDecodedInstruction : Obligations.StepRunsTheDecodedInstruction := by
  intro s i rest run decoded
  have byte : s.fetch = Config.opcAddAB := ((decodeWith_cons_eq_instr_iff _ _ _ i rest).1 decoded).1
  cases i with
  | addAB =>
    rw [step_admitted s run byte, exec_addAB, State.afterAddAB, advancePc_eq_setRegs]
    rfl

/-- Settles O34: the next state is the fault at pc. -/
theorem unimplementedOpcodeFaultIsPrecise : Obligations.UnimplementedOpcodeFaultIsPrecise :=
  fun s run byte => step_unimplemented s run byte

/-- Settles O35: in RUN a step has a next state on either kind of byte. -/
theorem noStepExactlyInFault : Obligations.NoStepExactlyInFault := by
  refine fun s => ⟨⟨fun noStep => ?_, step_in_fault s⟩, hostStep_in_fault s⟩
  rcases step_cases s with ⟨fault, -⟩ | ⟨-, -, next⟩ | ⟨-, -, next⟩
  · exact fault
  · cases next.symm.trans noStep
  · cases next.symm.trans noStep

/-- Settles O36: RUN completes, and FAULT has no step rather than a refused one. -/
theorem everyStepInRunCompletes : Obligations.EveryStepInRunCompletes := by
  refine ⟨fun s run => step_completes run, fun s r refused => ?_⟩
  rcases step_cases s with ⟨-, noStep⟩ | ⟨-, -, next⟩ | ⟨-, -, next⟩
  · cases noStep.symm.trans refused
  · cases next.symm.trans refused
  · cases next.symm.trans refused

/-- Settles O37: pc moves when the opcode is consumed, before the handler, which leaves it. -/
theorem pcAdvancesByOneOrStays : Obligations.PcAdvancesByOneOrStays := by
  refine ⟨fun s t h => ?_, fun i s t h => ?_⟩
  · obtain ⟨run, ⟨-, rfl⟩ | ⟨-, rfl⟩⟩ := step_next_cases h
    · simp [run, BitVec.toNat_add]
    · simp
  · cases i with
    | addAB =>
      cases h
      exact addAB_pc s.regs

/-- Settles O38: the frame of each of the two kinds of step. -/
theorem stepFrame : Obligations.StepFrame := by
  refine fun s t h => ⟨fun r notA notF => step_read8 h notA notF, step_sp h, step_lowNibble h,
    fun k => by rw [step_imem h], ?_⟩
  obtain ⟨run, ⟨-, rfl⟩ | ⟨-, rfl⟩⟩ := step_next_cases h
  · exact ⟨fun _ => ⟨afterAddAB_faultCause s, afterAddAB_faultPc s, afterAddAB_faultOpcode s⟩,
      fun fault => absurd fault (Phase.ne_fault_of_run run)⟩
  · exact ⟨(fun run' => nomatch run'), fun _ => afterFault_regs s⟩

/-- Settles O39: the fetch, which decides the step, gives the same byte in both states. -/
theorem stepReadsOnlyTheByteAtPc : Obligations.StepReadsOnlyTheByteAtPc := by
  intro s m same
  have fetch : ({ s with imem := m } : State).fetch = s.fetch := same
  rcases step_cases s with ⟨fault, noStep⟩ | ⟨run, byte, next⟩ | ⟨run, byte, next⟩
  · rw [noStep]
    exact step_in_fault { s with imem := m } fault
  · rw [next]
    exact step_admitted { s with imem := m } run (fetch.trans byte)
  · rw [next, step_unimplemented { s with imem := m } run (fetch.trans_ne byte), State.afterFault, fetch]
    rfl

/-- Settles O40: neither the choice of the step nor its work looks at the record, and the fault overwrites it. -/
theorem faultRecordIsUnreadInRun : Obligations.FaultRecordIsUnreadInRun := by
  intro s cause p o run
  by_cases byte : s.fetch = Config.opcAddAB
  · refine ⟨_, _, step_admitted s run byte, step_admitted _ run byte, ?_⟩
    rw [afterAddAB_phase, if_pos run]
    rfl
  · exact ⟨_, _, step_unimplemented s run byte, step_unimplemented _ run byte, rfl⟩

end Sys2Proof

/-! ### The host's moves (60_exceptions.md R161, 70_reset_and_hazards.md R170 to R173) -/

namespace Sys2Proof.Machine

/-- One load of the boot sequence. -/
def hostLoad (s : State) (load : (Reg8 ⊕ Reg16) × Nat) : State :=
  match load.1 with
  | .inl r => hostLoad8 r load.2 s
  | .inr r => hostLoad16 r load.2 s

/-- Boot: IMEM is supplied after reset, then the loads follow in their order. -/
theorem boot_eq_foldl (cells : List (Word × Byte)) (loads : List ((Reg8 ⊕ Reg16) × Nat)) :
    boot cells loads = loads.foldl hostLoad (supplyImem cells State.reset) := rfl

theorem boot_append_cons (cells : List (Word × Byte)) (pre post : List ((Reg8 ⊕ Reg16) × Nat))
    (load : (Reg8 ⊕ Reg16) × Nat) :
    boot cells (pre ++ load :: post) = post.foldl hostLoad (hostLoad (boot cells pre) load) := by
  rw [boot_eq_foldl, boot_eq_foldl, List.foldl_append, List.foldl_cons]

/-- What each of the loads leaves, all of them leave. -/
theorem foldl_hostLoad_keeps {α : Type} (view : State → α) (loads : List ((Reg8 ⊕ Reg16) × Nat)) (s : State)
    (keeps : ∀ load ∈ loads, ∀ u, view (hostLoad u load) = view u) : view (loads.foldl hostLoad s) = view s :=
  loads.foldlRecOn hostLoad (motive := fun u => view u = view s) rfl
    fun u same load mem => (keeps load mem u).trans same

variable (s : State) (load : (Reg8 ⊕ Reg16) × Nat)

@[simp] theorem hostLoad_phase : (hostLoad s load).phase = s.phase := by
  obtain ⟨r | r, v⟩ := load <;> rfl

@[simp] theorem hostLoad_imem : (hostLoad s load).imem = s.imem := by
  obtain ⟨r | r, v⟩ := load <;> rfl

theorem hostLoad_read8_of_ne {r : Reg8} (ne : load.1 ≠ .inl r) : (hostLoad s load).regs.read8 r = s.regs.read8 r := by
  obtain ⟨r' | r', v⟩ := load
  · exact (read8_assign8 s.regs r' r v).trans (if_neg fun eq => ne (congrArg Sum.inl eq.symm))
  · exact read8_put16 s.regs r' _ r

theorem hostLoad_read16_of_ne {r : Reg16} (ne : load.1 ≠ .inr r) :
    (hostLoad s load).regs.read16 r = s.regs.read16 r := by
  obtain ⟨r' | r', v⟩ := load
  · exact read16_put8 s.regs r' _ r
  · exact (read16_assign16 s.regs r' r v).trans (if_neg fun eq => ne (congrArg Sum.inr eq.symm))

theorem hostLoad_read8_same (r : Reg8) (v : Nat) :
    (hostLoad s (.inl r, v)).regs.read8 r = BitVec.ofNat 8 v :=
  (read8_assign8 s.regs r r v).trans (if_pos rfl)

theorem hostLoad_read16_same (r : Reg16) (v : Nat) :
    (hostLoad s (.inr r, v)).regs.read16 r = BitVec.ofNat 16 v :=
  (read16_assign16 s.regs r r v).trans (if_pos rfl)

theorem reset_lowNibble : lowNibble State.reset.regs.f = 0 := by decide

@[simp] theorem reset_read8 (r : Reg8) : State.reset.regs.read8 r = 0x00 := by cases r <;> rfl

end Sys2Proof.Machine

/-! ### The obligations about the host's moves -/

namespace Sys2Proof

open Sys2Proof.Machine

/-- Settles O1: every register is a literal of the reset state. -/
theorem resetInvariant : Obligations.ResetInvariant := by
  refine ⟨rfl, rfl, reset_read8, fun X => ?_, reset_lowNibble, fun p => ?_⟩
  · rw [readFlag_eq, ← read8_f, reset_read8]
    exact bne_eq_false_iff_eq.2 BitVec.zero_and
  · rw [RegisterFile.readWide, reset_read8, reset_read8]
    rfl

/-- Settles O2: reset looks at IMEM alone, and a load leaves IMEM. -/
theorem hostResetFromAnyState : Obligations.HostResetFromAnyState :=
  fun _ => ⟨rfl, rfl, reset_read8, rfl, rfl, fun _ _ => rfl, fun _ _ => rfl⟩

/-- Settles O3: every other move leaves the phase, for in FAULT a step does nothing. -/
theorem onlyResetLeavesFault : Obligations.OnlyResetLeavesFault := by
  intro m s fault
  cases m with
  | reset => simp [applyMove]
  | supply | load8 | load16 | read => simp [applyMove, fault]
  | step => simp [applyMove, hostStep_in_fault s fault, fault]

/-- Settles O4: every other move leaves the phase or gives RUN. -/
theorem onlyUnimplementedByteEntersFault : Obligations.OnlyUnimplementedByteEntersFault := by
  intro m s run
  cases m with
  | reset => simp [applyMove]
  | supply | load8 | load16 | read => simp [applyMove, run]
  | step => exact (hostStep_phase_eq_fault_iff run).trans (and_iff_right rfl).symm

/-- Settles O5: a load is one write of the register file. -/
theorem hostLoadChangesOnlyThatRegister : Obligations.HostLoadChangesOnlyThatRegister := by
  refine ⟨fun r v s => ⟨?_, fun r' ne => ?_, read16_put8 s.regs r _, rfl⟩,
    fun r v s => ⟨?_, read8_put16 s.regs r _, fun r' ne => ?_, rfl⟩⟩
  · rw [applyMove, hostLoad8_regs, read8_assign8, if_pos rfl, BitVec.toNat_ofNat]
  · rw [applyMove, hostLoad8_regs, read8_assign8, if_neg ne]
  · rw [applyMove, hostLoad16_regs, read16_assign16, if_pos rfl, BitVec.toNat_ofNat]
  · rw [applyMove, hostLoad16_regs, read16_assign16, if_neg ne]

/-- Settles O6: the byte added last is the byte placed last, in a canonical IMEM. -/
theorem supplyImemLeavesTheBlock : Obligations.SupplyImemLeavesTheBlock := by
  refine fun cells s => ⟨rfl, ofCells_wf cells, fun k v k' => ?_⟩
  simp only [applyMove, supplyImem_imem, ofCells_append]
  exact read_place _ k k' v (ofCells_wf cells)

/-- Settles O7: loads of other registers leave what the last load of a register, or reset, put there. -/
theorem bootHoldsTheLastLoads : Obligations.BootHoldsTheLastLoads := by
  refine ⟨fun cells loads => ⟨?_, ?_, fun r others => ?_, fun r others => ?_⟩,
    fun cells pre post v => ⟨fun r others => ?_, fun r others => ?_⟩⟩
  · exact foldl_hostLoad_keeps State.phase loads _ fun load _ u => hostLoad_phase u load
  · exact foldl_hostLoad_keeps State.imem loads _ fun load _ u => hostLoad_imem u load
  · exact foldl_hostLoad_keeps (·.regs.read8 r) loads _
      fun load mem u => hostLoad_read8_of_ne u load (others load mem)
  · exact foldl_hostLoad_keeps (·.regs.read16 r) loads _
      fun load mem u => hostLoad_read16_of_ne u load (others load mem)
  · rw [boot_append_cons, foldl_hostLoad_keeps (·.regs.read8 r) post _
      fun load mem u => hostLoad_read8_of_ne u load (others load mem), hostLoad_read8_same, BitVec.toNat_ofNat]
  · rw [boot_append_cons, foldl_hostLoad_keeps (·.regs.read16 r) post _
      fun load mem u => hostLoad_read16_of_ne u load (others load mem), hostLoad_read16_same, BitVec.toNat_ofNat]

/-- Settles O8: the first fetch is at 0x0100; 0 + 0 is 0, with Z alone. -/
theorem firstStepAfterBoot : Obligations.FirstStepAfterBoot := by
  intro cells
  have fetch : (boot cells []).fetch = (Memory.ofCells cells).read 0x0100 := rfl
  by_cases byte : (Memory.ofCells cells).read 0x0100 = 0x80
  · refine ⟨_, step_admitted (boot cells []) rfl (fetch.trans byte), ?_⟩
    have regs : ({ addAB RegisterFile.reset with pc := RegisterFile.reset.pc + 1 } : RegisterFile) =
        { RegisterFile.reset with a := 0x00, f := 0x80, pc := 0x0101 } := by decide
    rw [if_pos byte, afterAddAB_eq_setRegs]
    exact congrArg (boot cells []).setRegs regs
  · refine ⟨_, step_unimplemented (boot cells []) rfl (fetch.trans_ne byte), ?_⟩
    rw [if_neg byte]
    exact ⟨rfl, rfl, rfl, rfl, rfl⟩

/-- Settles O9: a move on the k-th CPU modifies that entry of the list. -/
theorem instancesAreIndependent : Obligations.InstancesAreIndependent := fun _ _ _ _ cpus =>
  ⟨List.getElem?_modify_eq _ _ cpus, fun ne =>
    ⟨List.getElem?_modify_ne _ cpus ne.symm, List.modify_modify_ne _ _ cpus ne.symm⟩⟩

/-- Settles O46: of the moves only reset and a load of f reach bits 3..0 of f, and reset clears them. -/
theorem lowNibbleOfFStays : Obligations.LowNibbleOfFStays := by
  intro m s notLoadF
  have stays : m ≠ .reset → lowNibble (applyMove m s).regs.f = lowNibble s.regs.f := by
    intro notReset
    cases m with
    | reset => exact absurd rfl notReset
    | load8 r v =>
      have notF : Reg8.f ≠ r := fun eq => notLoadF v (by rw [eq])
      rw [applyMove, hostLoad8_regs, ← read8_f, read8_assign8, if_neg notF, read8_f]
    | load16 r v => exact congrArg lowNibble (read8_put16 s.regs r _ .f)
    | step => exact hostStep_lowNibble s
    | supply | read => rfl
  refine ⟨fun zero => ?_, stays⟩
  by_cases reset : m = .reset
  · rw [reset]
    exact reset_lowNibble
  · rw [stays reset, zero]

end Sys2Proof

/-! ### The wide view round-trips (10_state.md R28, R33) -/

namespace Sys2Proof.Machine

section WideRoundTrip

variable (x : RegisterFile) (p : Pair)

/-- The low byte of a 16-bit value, by mask, is its remainder. -/
theorem and_low_byte_eq_mod (n : Nat) : n &&& 0xFF = n % 2 ^ 8 := Nat.and_two_pow_sub_one_eq_mod n 8

theorem readWide_writeWide (v : Word) : (x.writeWide p v.toNat).readWide p = v := by
  apply BitVec.eq_of_toNat_eq
  rw [readWide_toNat, writeWide_read8_hi, writeWide_read8_lo, BitVec.toNat_ofNat, BitVec.toNat_ofNat,
    Nat.shiftRight_eq_div_pow, and_low_byte_eq_mod]
  have := v.isLt
  omega

theorem readWide_hi_byte : BitVec.ofNat 8 (((x.readWide p).toNat % 2 ^ 16) >>> 8) = x.read8 p.hi.toReg8 := by
  apply BitVec.eq_of_toNat_eq
  rw [readWide_toNat, BitVec.toNat_ofNat, Nat.shiftRight_eq_div_pow]
  have := (x.read8 p.hi.toReg8).isLt
  have := (x.read8 p.lo.toReg8).isLt
  omega

theorem readWide_lo_byte : BitVec.ofNat 8 (((x.readWide p).toNat % 2 ^ 16) &&& 0xFF) = x.read8 p.lo.toReg8 := by
  apply BitVec.eq_of_toNat_eq
  rw [readWide_toNat, BitVec.toNat_ofNat, and_low_byte_eq_mod]
  have := (x.read8 p.lo.toReg8).isLt
  omega

theorem writeWide_readWide : x.writeWide p (x.readWide p).toNat = x := by
  rw [writeWide_eq, readWide_hi_byte, readWide_lo_byte, put8_read8, put8_read8]

end WideRoundTrip

/-! ### f as four flags and a low nibble (10_state.md R34 to R39, 40_alu_flag_computer.md R108) -/

section FlagsAndNibble

/-- Every bit above the low nibble is a flag's. -/
theorem FlagBit.exists_bit_eq {i : Nat} (ge : 4 ≤ i) (lt : i < 8) : ∃ X : FlagBit, X.bit = i := by
  interval_cases i
  · exact ⟨.c, rfl⟩
  · exact ⟨.h, rfl⟩
  · exact ⟨.n, rfl⟩
  · exact ⟨.z, rfl⟩

/-- A byte is its low nibble and its four flags. -/
theorem eq_of_lowNibble_of_flags {v w : Byte} (low : lowNibble v = lowNibble w)
    (flags : ∀ X : FlagBit, v.getLsbD X.bit = w.getLsbD X.bit) : v = w := by
  apply BitVec.eq_of_getLsbD_eq
  intro i lt
  by_cases inNibble : i < 4
  · have same := congrArg (·.getLsbD i) low
    simpa [getLsbD_lowNibble, inNibble] using same
  · obtain ⟨X, rfl⟩ := FlagBit.exists_bit_eq (Nat.not_lt.1 inNibble) lt
    exact flags X

variable (v : Byte)

theorem withFlag_getLsbD_bit (X : FlagBit) : withFlag v X (v.getLsbD X.bit) = v := by
  refine eq_of_lowNibble_of_flags (lowNibble_withFlag X v _) fun Y => ?_
  rw [getLsbD_withFlag_bit]
  split
  next same => rw [same]
  next => rfl

theorem withFlag_comm {X Y : FlagBit} (ne : Y ≠ X) (t u : Bool) :
    withFlag (withFlag v X t) Y u = withFlag (withFlag v Y u) X t := by
  refine eq_of_lowNibble_of_flags (by simp only [lowNibble_withFlag]) fun Z => ?_
  simp only [getLsbD_withFlag_bit]
  by_cases isY : Z = Y
  · rw [if_pos isY, if_neg (isY.trans_ne ne), if_pos isY]
  · rw [if_neg isY, if_neg isY]

theorem getLsbD_packFlags (X : FlagBit) (z n h cy : Bool) :
    (packFlags z n h cy).getLsbD X.bit = X.select z n h cy := by
  revert z n h cy
  cases X <;> decide

theorem lowNibble_packFlags (z n h cy : Bool) : lowNibble (packFlags z n h cy) = 0 := by
  revert z n h cy
  decide

/-- No flag lies in the low nibble. -/
theorem getLsbD_lowNibble_bit (X : FlagBit) : (lowNibble v).getLsbD X.bit = false := by
  rw [getLsbD_lowNibble, decide_eq_false (Nat.not_lt.2 X.four_le_bit), Bool.false_and]

theorem lowNibble_or (w : Byte) : lowNibble (v ||| w) = lowNibble v ||| lowNibble w := BitVec.and_or_distrib_right

theorem lowNibble_lowNibble : lowNibble (lowNibble v) = lowNibble v := by
  rw [lowNibble, lowNibble, BitVec.and_assoc, BitVec.and_self]

/-- Four flags written are the packed flags beside the old low nibble. -/
theorem withFlags_eq_or_packFlags (z n h cy : Bool) : withFlags v z n h cy = lowNibble v ||| packFlags z n h cy := by
  refine eq_of_lowNibble_of_flags ?_ fun X => ?_
  · rw [lowNibble_withFlags, lowNibble_or, lowNibble_lowNibble, lowNibble_packFlags]
    exact BitVec.or_zero.symm
  · rw [getLsbD_withFlags, BitVec.getLsbD_or, getLsbD_lowNibble_bit, Bool.false_or, getLsbD_packFlags]

theorem setFlag_f (x : RegisterFile) (X : FlagBit) (t : Bool) : (x.setFlag X t).f = withFlag x.f X t := by
  rw [setFlag_eq_put8]
  rfl

theorem read8_setFlag_of_ne (x : RegisterFile) (X : FlagBit) (t : Bool) {r : Reg8} (ne : r ≠ .f) :
    (x.setFlag X t).read8 r = x.read8 r := by
  rw [setFlag_eq_put8, read8_put8, if_neg ne]

theorem readFlag_setFlag (x : RegisterFile) (X Y : FlagBit) (t : Bool) :
    (x.setFlag X t).readFlag Y = if Y = X then t else x.readFlag Y := by
  rw [readFlag_eq_getLsbD, setFlag_f, getLsbD_withFlag_bit, readFlag_eq_getLsbD]

theorem setFlag_comm (x : RegisterFile) {X Y : FlagBit} (ne : Y ≠ X) (t u : Bool) :
    (x.setFlag X t).setFlag Y u = (x.setFlag Y u).setFlag X t := by
  simp only [setFlag_eq_put8, put8_put8]
  exact congrArg (x.put8 .f) (withFlag_comm x.f ne t u)

/-- A commit writes f as the four flag writes do. -/
theorem commit_f (x : RegisterFile) (dst : GReg) (r : AluResult) :
    (x.commit dst r).f = withFlags x.f r.z r.n r.h r.cy := by
  rw [commit_eq, ← read8_f, read8_put8, if_neg dst.toReg8_ne_f.symm, read8_put8, if_pos rfl]

theorem read8_commit_dst (x : RegisterFile) (dst : GReg) (r : AluResult) :
    (x.commit dst r).read8 dst.toReg8 = r.res := by
  rw [commit_eq, read8_put8, if_pos rfl]

/-- The four flag writes of a commit, as one write of f. -/
theorem setFlags_eq_put8 (x : RegisterFile) (z n h cy : Bool) :
    (((x.setFlag .z z).setFlag .n n).setFlag .h h).setFlag .c cy = x.put8 .f (withFlags x.f z n h cy) := by
  simp only [setFlag_eq_put8, put8_put8]
  rfl

end FlagsAndNibble

/-! ### The carries and the laws of `ADD8` (40_alu_flag_computer.md R102, R108, R109) -/

section Carries

/-- What the sum carries into bit k+1, as the carry of `BitVec`'s adder on k+2 bits. -/
theorem testBit_add_eq_xor_carryOut (x y k : Nat) :
    (x + y).testBit (k + 1) = ((x.testBit (k + 1) ^^ y.testBit (k + 1)) ^^ carryOut x y k) := by
  have sumBit := BitVec.getLsbD_add (Nat.lt_succ_self (k + 1)) (BitVec.ofNat (k + 2) x) (BitVec.ofNat (k + 2) y)
  have carry : BitVec.carry (k + 1) (BitVec.ofNat (k + 2) x) (BitVec.ofNat (k + 2) y) false = carryOut x y k := by
    have dvd : 2 ^ (k + 1) ∣ 2 ^ (k + 2) := Nat.pow_dvd_pow 2 (Nat.le_succ _)
    simp [BitVec.carry, carryOut, Nat.mod_mod_of_dvd _ dvd]
  rw [carry, ← BitVec.ofNat_add] at sumBit
  simp only [BitVec.getLsbD_ofNat, Nat.lt_succ_self, decide_true, Bool.true_and] at sumBit
  rw [sumBit, Bool.xor_assoc]

variable (x y : Byte)

/-- A low nibble is the remainder modulo 16. -/
theorem and_low_nibble_toNat : (x &&& 0x0F).toNat = x.toNat % 2 ^ 4 := Nat.and_two_pow_sub_one_eq_mod x.toNat 4

theorem add8_h_iff_lowNibble :
    (alu .add8 x y).h = true ↔ (lowNibble x).toNat + (lowNibble y).toNat > 0x0F := add8_h_iff x y

theorem add8_z_eq : (alu .add8 x y).z = (x + y == 0) := congrArg (· == 0) (add8_res_eq_add x y)

theorem add8_h_eq_carryOut : (alu .add8 x y).h = carryOut x.toNat y.toNat 3 := by
  refine Bool.eq_iff_iff.2 ?_
  rw [add8_h_iff, and_low_nibble_toNat, and_low_nibble_toNat, carryOut, decide_eq_true_iff]
  omega

theorem add8_cy_eq_carryOut : (alu .add8 x y).cy = carryOut x.toNat y.toNat 7 := by
  refine Bool.eq_iff_iff.2 ?_
  rw [add8_cy_iff, carryOut, decide_eq_true_iff, Nat.mod_eq_of_lt x.isLt, Nat.mod_eq_of_lt y.isLt]
  omega

theorem add8_cy_eq_false_iff : (alu .add8 x y).cy = false ↔ x.toNat + y.toNat ≤ 0xFF := by
  rw [← Bool.not_eq_true, add8_cy_iff, Nat.not_lt]

theorem add8_comm : alu .add8 x y = alu .add8 y x := by
  simp only [alu, add8, Nat.add_comm]

theorem add8_zero : alu .add8 x 0 = { res := x, z := x == 0, n := false, h := false, cy := false } := by
  have res : (alu .add8 x 0).res = x := (add8_res_eq_add x 0).trans (BitVec.add_zero x)
  have z : (alu .add8 x 0).z = (x == 0) := congrArg (· == 0) res
  have h : (alu .add8 x 0).h = false := by
    have := Nat.mod_lt x.toNat (Nat.two_pow_pos 4)
    rw [← Bool.not_eq_true, add8_h_iff, and_low_nibble_toNat]
    simpa using Nat.le_of_lt_succ this
  have cy : (alu .add8 x 0).cy = false := (add8_cy_eq_false_iff x 0).2 (Nat.le_of_lt_succ x.isLt)
  exact (AluResult.mk.injEq ..).mpr ⟨res, z, rfl, h, cy⟩

/-- A zero result without a carry is 0 + 0. -/
theorem add8_z_and_not_cy_iff : (alu .add8 x y).z = true ∧ (alu .add8 x y).cy = false ↔ x = 0 ∧ y = 0 := by
  rw [add8_z_iff, add8_cy_eq_false_iff, ← BitVec.toNat_inj, ← BitVec.toNat_inj (x := y)]
  simp only [BitVec.ofNat_eq_ofNat, BitVec.toNat_zero]
  omega

/-- A byte and its negation carry, whenever the byte is not 0. -/
theorem add8_cy_neg {x : Byte} (ne : x ≠ 0) : (alu .add8 x (-x)).cy = true := by
  have pos : x.toNat ≠ 0 := fun zero => ne (BitVec.eq_of_toNat_eq zero)
  have lt := x.isLt
  rw [add8_cy_iff, BitVec.toNat_neg]
  omega

/-- Every bit of the first operand can decide the carry. -/
theorem exists_add8_cy_xor_twoPow_ne {i : Nat} (lt : i < 8) :
    ∃ x y : Byte, (alu .add8 (x ^^^ BitVec.twoPow 8 i) y).cy ≠ (alu .add8 x y).cy := by
  have ne : BitVec.twoPow 8 i ≠ 0 := fun zero => by
    have bit := congrArg (·.getLsbD i) zero
    simp [lt] at bit
  refine ⟨0, -BitVec.twoPow 8 i, ?_⟩
  have noCarry : (alu .add8 0 (-BitVec.twoPow 8 i)).cy = false := by rw [add8_comm, add8_zero]
  rw [BitVec.ofNat_eq_ofNat, BitVec.zero_xor, add8_cy_neg ne]
  rw [BitVec.ofNat_eq_ofNat] at noCarry
  rw [noCarry]
  decide

/-- Without a carry Z leaves no half-carry, so one of the eight values is missing. -/
theorem packFlags_mem {z h cy : Bool} (zero : z = true → cy = false → h = false) :
    packFlags z false h cy ∈ ([0x00, 0x10, 0x20, 0x30, 0x80, 0x90, 0xB0] : List Byte) := by
  revert z h cy
  decide

theorem add8_h_eq_false_of_z_of_not_cy (z : (alu .add8 x y).z = true) (cy : (alu .add8 x y).cy = false) :
    (alu .add8 x y).h = false := by
  obtain ⟨rfl, rfl⟩ := (add8_z_and_not_cy_iff x y).1 ⟨z, cy⟩
  rfl

end Carries

end Sys2Proof.Machine

/-! ### The obligations of the wide view, the flags and the ALU -/

namespace Sys2Proof

open Sys2Proof.Machine

/-- Settles O12: the pairs' bytes, by name. -/
theorem pairsNameHighByteFirst : Obligations.PairsNameHighByteFirst :=
  fun x => ⟨readWide_toNat x .bc, readWide_toNat x .de, readWide_toNat x .hl⟩

/-- Settles O15: the split of a value into two bytes and their joining are inverse. -/
theorem wideRoundTrips : Obligations.WideRoundTrips :=
  fun x p => ⟨readWide_writeWide x p, writeWide_readWide x p⟩

/-- Settles O17: `setFlag` replaces f by a byte that differs in one bit. -/
theorem setFlagWritesOneBit : Obligations.SetFlagWritesOneBit := by
  refine fun x X t => ⟨fun i lt => ?_, fun r ne => read8_setFlag_of_ne x X t ne, fun r => ?_, fun already => ?_⟩
  · rw [setFlag_f, getLsbD_withFlag X x.f t lt]
  · rw [setFlag_eq_put8, read16_put8]
  · rw [readFlag_eq_getLsbD] at already
    rw [setFlag_eq_put8, ← already, withFlag_getLsbD_bit]
    exact put8_read8 x .f

/-- Settles O18: the four flags and the low nibble are different bits of f. -/
theorem flagsAreIndependent : Obligations.FlagsAreIndependent := by
  refine fun x X t => ⟨?_, ?_, fun Y u ne => ⟨?_, setFlag_comm x ne t u⟩⟩
  · rw [readFlag_setFlag, if_pos rfl]
  · rw [setFlag_f, lowNibble_withFlag]
  · rw [readFlag_setFlag, if_neg ne]

/-- Settles O22: H and C compare the same sums, and `carryOut` is the carry of the adder. -/
theorem flagsAreCarriesOut : Obligations.FlagsAreCarriesOut :=
  ⟨fun x y => ⟨add8_h_eq_carryOut x y, add8_cy_eq_carryOut x y⟩, testBit_add_eq_xor_carryOut⟩

/-- Settles O23: with N clear only Z and H without C cannot be; the sums give each of the other values. -/
theorem add8FlagNibbles : Obligations.Add8FlagNibbles := by
  refine fun v => ⟨?_, fun mem => ?_⟩
  · rintro ⟨x, y, rfl⟩
    exact packFlags_mem (add8_h_eq_false_of_z_of_not_cy x y)
  · simp only [List.mem_cons, List.not_mem_nil, or_false] at mem
    obtain rfl | rfl | rfl | rfl | rfl | rfl | rfl := mem
    · exact ⟨0x01, 0x00, by decide⟩
    · exact ⟨0xF0, 0x20, by decide⟩
    · exact ⟨0x0F, 0x01, by decide⟩
    · exact ⟨0xFF, 0x02, by decide⟩
    · exact ⟨0x00, 0x00, by decide⟩
    · exact ⟨0x80, 0x80, by decide⟩
    · exact ⟨0xFF, 0x01, by decide⟩

/-- Settles O24: each law compares the exact sum with 256, but for H, a test of the low nibbles. -/
theorem add8Laws : Obligations.Add8Laws := by
  refine ⟨fun x y => ⟨add8_comm x y, ?_, ?_, add8_z_and_not_cy_iff x y, ?_, add8_zero x, fun x' y' lowX lowY => ?_⟩,
    fun i lt => ⟨exists_add8_cy_xor_twoPow_ne lt, ?_⟩⟩
  · rw [add8_cy_iff, add8_res_toNat]
    omega
  · rw [add8_cy_iff, add8_res_toNat]
    omega
  · rw [add8_z_iff, add8_cy_iff]
    omega
  · rw [Bool.eq_iff_iff, add8_h_iff_lowNibble, add8_h_iff_lowNibble, lowX, lowY]
  · obtain ⟨x, y, ne⟩ := exists_add8_cy_xor_twoPow_ne lt
    exact ⟨y, x, by rwa [add8_comm, add8_comm y x]⟩

end Sys2Proof

/-! ### The obligations of `ADD A, B` and the handler contract (41_arithmetic.md R120 to R124) -/

namespace Sys2Proof

open Sys2Proof.Machine

/-- Settles O26: the committed sum, its flags packed beside the low nibble. -/
theorem addABClosedForm : Obligations.AddABClosedForm := by
  intro s
  rw [exec_addAB, addAB_eq, withFlags_eq_or_packFlags, add8_n, add8_h_eq_carryOut, add8_cy_eq_carryOut,
    add8_z_eq]
  rfl

/-- Settles O27: the destination is not f, and the handler does not touch pc. -/
theorem orderInsideAStepIsUnobservable : Obligations.OrderInsideAStepIsUnobservable := by
  refine ⟨fun x dst r => ?_, fun i n s => ?_⟩
  · have f : (x.write8 dst r.res.toNat).f = x.f :=
      (read8_write8 x dst .f _).trans (if_neg dst.toReg8_ne_f.symm)
    rw [setFlags_eq_put8, f, commit_eq, RegisterFile.write8, assign8_toNat, put8_comm x dst.toReg8_ne_f]
  · cases i with
    | addAB =>
      refine ⟨_, exec_addAB s, ?_⟩
      rw [exec_addAB, addAB_advancePc_regs, advancePc_eq_setRegs (s.setRegs _), setRegs_regs, addAB_pc]
      rfl

/-- Settles O28: the one handler commits `ADD8` of a and b to a. -/
theorem handlersMeetTheContract : Obligations.HandlersMeetTheContract := by
  intro i
  cases i with
  | addAB =>
    refine ⟨.add8, .a, .b, .a, fun s => ⟨_, exec_addAB s, ⟨?_, ?_⟩, fun r notA notF => ?_, ?_, rfl⟩⟩
    · rw [setFlags_eq_put8]
      exact commit_f s.regs .a _
    · exact read8_commit_dst s.regs .a _
    · exact read8_commit_of_ne s.regs _ notA notF
    · exact read16_commit s.regs .a _

end Sys2Proof

/-! ### IMEM as a function of the address (20_memory.md R60 to R62) -/

namespace Sys2Proof.Machine

/-- Supplying the graph of `g` over some addresses gives `g` there and unlisted bytes elsewhere. -/
theorem read_ofCells_graph (g : Word → Byte) (addrs : List Word) (k : Word) :
    (Memory.ofCells (addrs.map fun a => (a, g a))).read k = if k ∈ addrs then g k else Config.unlistedByte := by
  induction addrs using List.reverseRecOn with
  | nil => rfl
  | append_singleton addrs a ih =>
    rw [List.map_append, List.map_singleton, ofCells_append, read_place _ _ _ _ (ofCells_wf _), ih]
    by_cases last : k = a
    · simp [last]
    · simp [last]

/-- There are finitely many 16-bit addresses, so a list can hold all of them. -/
theorem exists_list_of_all_words : ∃ addrs : List Word, ∀ k, k ∈ addrs :=
  ⟨(List.finRange (2 ^ 16)).map BitVec.ofFin, fun k => List.mem_map.2 ⟨k.toFin, List.mem_finRange _, rfl⟩⟩

/-- A canonical memory lists exactly the bytes it reads, but the unlisted one. -/
theorem mem_iff_lookup {m : Memory} (wf : m.wf) (k : Nat) (v : Byte) :
    (k, v) ∈ m ↔ Memory.lookup k m = v ∧ v ≠ Config.unlistedByte := by
  induction m with
  | nil => simpa [Memory.lookup] using fun eq : Config.unlistedByte = v => eq.symm
  | cons x m ih =>
    obtain ⟨a, b⟩ := x
    obtain ⟨rising, inside⟩ := wf
    obtain ⟨above, risingTail⟩ := List.pairwise_cons.1 rising
    have wfTail : Memory.wf m := ⟨risingTail, fun y mem => inside y (List.mem_cons_of_mem _ mem)⟩
    have listed : b ≠ Config.unlistedByte := (inside (a, b) List.mem_cons_self).2
    rw [List.mem_cons, ih wfTail]
    by_cases head : a = k
    · subst head
      have beyond : Memory.lookup a m = Config.unlistedByte := lookup_of_lt a m above
      simp only [Memory.lookup, if_true, beyond, Prod.mk.injEq, true_and]
      constructor
      · rintro (rfl | ⟨rfl, absent⟩)
        · exact ⟨rfl, listed⟩
        · exact absurd rfl absent
      · rintro ⟨rfl, -⟩
        exact .inl rfl
    · have ne : (k, v) ≠ (a, b) := fun eq => head (congrArg Prod.fst eq).symm
      simp only [Memory.lookup, head, if_false, ne, false_or]

/-- The cells of a canonical memory are told by its reads. -/
theorem mem_iff_read {m : Memory} (wf : m.wf) (k : Nat) (v : Byte) :
    (k, v) ∈ m ↔ k < 2 ^ 16 ∧ m.read (BitVec.ofNat 16 k) = v ∧ v ≠ Config.unlistedByte := by
  by_cases lt : k < 2 ^ 16
  · rw [mem_iff_lookup wf, Memory.read, BitVec.toNat_ofNat, Nat.mod_eq_of_lt lt, and_iff_right lt]
  · exact iff_of_false (fun mem => lt (wf.2 _ mem).1) fun h => lt h.1

end Sys2Proof.Machine

/-! ### The obligations about IMEM -/

namespace Sys2Proof

open Sys2Proof.Machine

/-- Settles O41: the host lists every address. -/
theorem everyImemCanBeSupplied : Obligations.EveryImemCanBeSupplied := by
  obtain ⟨addrs, all⟩ := exists_list_of_all_words
  refine fun g => ⟨addrs.map fun a => (a, g a), fun s => ⟨ofCells_wf _, fun k => ?_⟩⟩
  rw [applyMove, supplyImem_imem, read_ofCells_graph, if_pos (all k)]

/-- Settles O42: two strictly rising lists with the same cells are one. -/
theorem canonicalImemIsUnique : Obligations.CanonicalImemIsUnique := by
  intro m m' wf wf' alike
  have sameCells : ∀ x : Host.Cell, x ∈ m ↔ x ∈ m' := by
    rintro ⟨k, v⟩
    rw [mem_iff_read wf, mem_iff_read wf', alike]
  have perm : m.Perm m' :=
    (List.perm_ext_iff_of_nodup (wf.1.imp fun lt eq => Nat.ne_of_lt lt (congrArg Prod.fst eq))
      (wf'.1.imp fun lt eq => Nat.ne_of_lt lt (congrArg Prod.fst eq))).2 sameCells
  exact perm.eq_of_pairwise (fun _ _ _ _ lt gt => absurd gt (Nat.lt_asymm lt)) wf.1 wf'.1

end Sys2Proof

/-! ### Runs (42_dispatch_stub.md R131 to R137) -/

namespace Sys2Proof

open Sys2Proof.Machine

/-- One more step at the end of a run. -/
theorem runFor_succ_last {n : Nat} {s t : State} (h : runFor n s = .next t) : runFor (n + 1) s = step t := by
  rw [runFor_add h 1]
  cases last : step t with
  | next u => rw [runFor_succ_of_next last, runFor_zero]
  | fault r => exact runFor_succ_of_fault last 0
  | refused r => exact runFor_succ_of_refused last 0

/-- What every step leaves, every run leaves. -/
theorem runFor_keeps {α : Type} (view : State → α) (keeps : ∀ s t, step s = .next t → view t = view s) {n : Nat}
    {s t : State} (h : runFor n s = .next t) : view t = view s := by
  induction n generalizing s with
  | zero => cases h; rfl
  | succ n ih =>
    cases first : step s with
    | next u =>
      rw [runFor_succ_of_next first] at h
      exact (ih h).trans (keeps s u first)
    | fault r => rw [runFor_succ_of_fault first] at h; cases h
    | refused r => rw [runFor_succ_of_refused first] at h; cases h

/-- In FAULT there is no run but the empty one. -/
theorem runFor_succ_in_fault {s : State} (fault : s.phase = .fault) (n : Nat) :
    runFor (n + 1) s = .fault .noStepInFault :=
  runFor_succ_of_fault (step_in_fault s fault) n

/-- The `n` bytes from pc on, at addresses modulo 2^16, are the opcode. -/
def AdmittedFor (n : Nat) (s : State) : Prop :=
  ∀ k, k < n → s.imem.read (s.regs.pc + BitVec.ofNat 16 k) = Config.opcAddAB

theorem AdmittedFor.mono {n m : Nat} {s : State} (admitted : AdmittedFor n s) (le : m ≤ n) : AdmittedFor m s :=
  fun k lt => admitted k (Nat.lt_of_lt_of_le lt le)

/-- `n` steps from `s` led to `t`, in RUN, by the instruction alone. -/
structure RanAdmitted (n : Nat) (s t : State) : Prop where
  run : runFor n s = .next t
  phase : t.phase = .run
  pc : t.regs.pc = s.regs.pc + BitVec.ofNat 16 n
  a : t.regs.a = s.regs.a + BitVec.ofNat 8 n * s.regs.b
  b : t.regs.b = s.regs.b
  imem : t.imem = s.imem

/-- The next byte of a run over admitted bytes. -/
theorem RanAdmitted.fetch {n : Nat} {s t : State} (h : RanAdmitted n s t) :
    t.fetch = s.imem.read (s.regs.pc + BitVec.ofNat 16 n) := by
  rw [State.fetch, h.imem, h.pc]

theorem RanAdmitted.succ {n : Nat} {s t : State} (h : RanAdmitted n s t) (byte : t.fetch = Config.opcAddAB) :
    RanAdmitted (n + 1) s t.afterAddAB where
  run := (runFor_succ_last h.run).trans (step_admitted t h.phase byte)
  phase := h.phase
  pc := by
    rw [afterAddAB_pc, h.pc, BitVec.add_assoc, BitVec.ofNat_add]
    rfl
  a := by
    rw [afterAddAB_a, h.a, h.b, BitVec.ofNat_add, BitVec.add_assoc, BitVec.add_mul, BitVec.one_mul]
  b := (afterAddAB_b t).trans h.b
  imem := h.imem

theorem exists_ranAdmitted {n : Nat} {s : State} (run : s.phase = .run) (admitted : AdmittedFor n s) :
    ∃ t, RanAdmitted n s t := by
  induction n with
  | zero => exact ⟨s, rfl, run, by simp, by simp, rfl, rfl⟩
  | succ n ih =>
    obtain ⟨t, ran⟩ := ih (admitted.mono (Nat.le_succ n))
    exact ⟨_, ran.succ (ran.fetch.trans (admitted n (Nat.lt_succ_self n)))⟩

theorem cleanFor_of_admittedFor {n : Nat} {s : State} (run : s.phase = .run) (admitted : AdmittedFor n s) :
    CleanFor n s := by
  obtain ⟨t, ran⟩ := exists_ranAdmitted run admitted
  exact ⟨t, ran.run, ran.phase⟩

/-- The `n`-th byte from pc on is the first that is not the opcode. -/
structure FirstOtherAt (n : Nat) (s : State) : Prop where
  admittedBefore : AdmittedFor n s
  other : s.imem.read (s.regs.pc + BitVec.ofNat 16 n) ≠ Config.opcAddAB

/-- Either every byte that pc will meet is the opcode, or there is a first other one. -/
theorem admittedFor_or_exists_firstOtherAt (s : State) : (∀ n, AdmittedFor n s) ∨ ∃ n, FirstOtherAt n s := by
  by_cases other : ∃ n, s.imem.read (s.regs.pc + BitVec.ofNat 16 n) ≠ Config.opcAddAB
  · have before : AdmittedFor (Nat.find other) s := fun k lt => not_not.1 (Nat.find_min other lt)
    exact .inr ⟨Nat.find other, before, Nat.find_spec other⟩
  · exact .inl fun _ k _ => not_not.1 fun ne => other ⟨k, ne⟩

/-- pc walks every address modulo 2^16. -/
theorem admittedFor_all_iff (s : State) :
    (∀ n, AdmittedFor n s) ↔ ∀ k : Word, s.imem.read k = Config.opcAddAB := by
  refine ⟨fun admitted k => ?_, fun all _ _ _ => all _⟩
  have byte := admitted _ (k - s.regs.pc).toNat (Nat.lt_succ_self _)
  rwa [BitVec.ofNat_toNat, BitVec.setWidth_eq, BitVec.add_comm, BitVec.sub_add_cancel] at byte

/-- The run up to the first other byte, and the fault there. -/
theorem FirstOtherAt.exists_run {n : Nat} {s : State} (first : FirstOtherAt n s) (run : s.phase = .run) :
    ∃ t, RanAdmitted n s t ∧ runFor (n + 1) s = .next t.afterFault := by
  obtain ⟨admitted, other⟩ := first
  obtain ⟨t, ran⟩ := exists_ranAdmitted run admitted
  have fault := step_unimplemented t ran.phase (ran.fetch.trans_ne other)
  exact ⟨t, ran, (runFor_succ_last ran.run).trans fault⟩

/-- After the fault there is no step. -/
theorem runFor_of_gt_of_fault {n m : Nat} {s t : State} (run : runFor n s = .next t) (fault : t.phase = .fault)
    (gt : n < m) : runFor m s = .fault .noStepInFault := by
  obtain ⟨k, rfl⟩ := Nat.exists_eq_add_of_lt gt
  exact (runFor_add run (k + 1)).trans (runFor_succ_in_fault fault k)

/-- A run that meets another byte is not clean past it. -/
theorem FirstOtherAt.not_cleanFor {n : Nat} {s : State} (first : FirstOtherAt n s) (run : s.phase = .run) :
    ¬ CleanFor (n + 1) s := by
  rintro ⟨u, runU, clean⟩
  obtain ⟨t, -, runT⟩ := first.exists_run run
  cases runT.symm.trans runU
  cases clean

theorem cleanFor_all_iff_admittedFor_all {s : State} (run : s.phase = .run) :
    (∀ n, CleanFor n s) ↔ ∀ n, AdmittedFor n s := by
  refine ⟨fun clean => ?_, fun admitted n => cleanFor_of_admittedFor run (admitted n)⟩
  rcases admittedFor_or_exists_firstOtherAt s with admitted | ⟨n, first⟩
  · exact admitted
  · exact absurd (clean (n + 1)) (first.not_cleanFor run)

/-! ### The obligations about runs -/

/-- Settles O47: what each step leaves, the run leaves. -/
theorem runFrame : Obligations.RunFrame := fun _ _ _ h =>
  ⟨runFor_keeps State.imem (fun _ _ => step_imem) h,
    runFor_keeps (·.regs.sp) (fun _ _ => step_sp) h,
    runFor_keeps (lowNibble ·.regs.f) (fun _ _ => step_lowNibble) h,
    fun r notA notF => runFor_keeps (·.regs.read8 r) (fun _ _ step => step_read8 step notA notF) h⟩

/-- Settles O48: by induction on the number of steps. -/
theorem runOverAdmittedBytes : Obligations.RunOverAdmittedBytes := by
  intro n s run admitted
  obtain ⟨t, ran⟩ := exists_ranAdmitted run admitted
  exact ⟨t, ran.run, ran.phase, ran.pc, ran.a, ran.b, ran.imem⟩

/-- Settles O49: the fault keeps the state that the admitted bytes led to. -/
theorem runStopsAtTheFirstOtherByte : Obligations.RunStopsAtTheFirstOtherByte := by
  intro n s run admitted other
  obtain ⟨t, ran, fault⟩ := FirstOtherAt.exists_run ⟨admitted, other⟩ run
  exact ⟨t.afterFault, fault, afterFault_phase t, afterFault_faultCause t, ran.pc, (afterFault_faultPc t).symm,
    congrArg (·.read t.regs.pc) ran.imem, ran.a, fun m => runFor_of_gt_of_fault fault (afterFault_phase t) (by omega)⟩

/-- Settles O50: a first other byte, if there is one, is where the run stops. -/
theorem runNeverEndsOrFaults : Obligations.RunNeverEndsOrFaults := by
  refine fun s run => ⟨(cleanFor_all_iff_admittedFor_all run).trans (admittedFor_all_iff s), ?_⟩
  rcases admittedFor_or_exists_firstOtherAt s with admitted | ⟨n, first⟩
  · exact .inl ((cleanFor_all_iff_admittedFor_all run).2 admitted)
  · obtain ⟨t, -, fault⟩ := first.exists_run run
    have cleanBefore : ∀ m, m < n + 1 → CleanFor m s := fun m lt =>
      cleanFor_of_admittedFor run (first.admittedBefore.mono (Nat.le_of_lt_succ lt))
    exact .inr ⟨n + 1, t.afterFault, fault, rfl, cleanBefore, fun m gt => runFor_of_gt_of_fault fault rfl gt⟩

end Sys2Proof

/-! ### The assembler (30_encoding.md R86, R87) -/

namespace Sys2Proof.Machine

/-- A line that begins with `pre` is `pre` and what follows it. -/
theorem take_eq_and_drop_eq_iff {pre src rest : List Char} {n : Nat} (length : pre.length = n) :
    src.take n = pre ∧ src.drop n = rest ↔ src = pre ++ rest := by
  subst length
  constructor
  · rintro ⟨take, drop⟩
    rw [← List.take_append_drop pre.length src, take, drop]
  · rintro rfl
    exact ⟨List.take_left, List.drop_left⟩

theorem isOperandsAB_iff (src : List Char) :
    isOperandsAB src = true ↔ ∃ x y, (x = 'A' ∨ x = 'a') ∧ (y = 'B' ∨ y = 'b') ∧ src = [x, ',', ' ', y] := by
  unfold isOperandsAB
  split
  next x y =>
    simp only [Bool.and_eq_true, Bool.or_eq_true, beq_iff_eq]
    refine ⟨fun ⟨isA, isB⟩ => ⟨x, y, isA, isB, rfl⟩, ?_⟩
    rintro ⟨_, _, isA, isB, ⟨⟩⟩
    exact ⟨isA, isB⟩
  next noOperands =>
    refine iff_of_false Bool.false_ne_true ?_
    rintro ⟨x, y, -, -, rfl⟩
    exact noOperands x y rfl

/-- The spellings of `ADD A, B` (R86). -/
theorem spellsAddAB_iff (src : List Char) :
    spellsAddAB src = true ↔ src = synonymAddAB ∨
      ∃ x y, (x = 'A' ∨ x = 'a') ∧ (y = 'B' ∨ y = 'b') ∧ src = mnemonicAdd ++ [x, ',', ' ', y] := by
  simp only [spellsAddAB, Bool.or_eq_true, Bool.and_eq_true, beq_iff_eq, isOperandsAB_iff,
    ← take_eq_and_drop_eq_iff (pre := mnemonicAdd) (n := 4) rfl]
  refine or_congr_right ⟨?_, ?_⟩
  · rintro ⟨take, x, y, isA, isB, drop⟩
    exact ⟨x, y, isA, isB, take, drop⟩
  · rintro ⟨x, y, isA, isB, take, drop⟩
    exact ⟨take, x, y, isA, isB, drop⟩

/-- The lines of a data byte (R87). -/
theorem dataByte_eq_some_iff (src : List Char) (v : Byte) :
    dataByte src = some v ↔ ∃ x y p q, hexDigit x = some p ∧ hexDigit y = some q ∧
      v = BitVec.ofNat 8 (16 * p + q) ∧ src = directiveByte ++ [x, y] := by
  constructor
  · intro some
    unfold dataByte at some
    split at some
    next take =>
      split at some
      next x y drop =>
        split at some
        next p q digitX digitY =>
          cases some
          exact ⟨x, y, p, q, digitX, digitY, rfl, (take_eq_and_drop_eq_iff rfl).1 ⟨beq_iff_eq.1 take, drop⟩⟩
        next => cases some
      next => cases some
    next => cases some
  · rintro ⟨x, y, p, q, digitX, digitY, rfl, rfl⟩
    simp [dataByte, directiveByte, digitX, digitY]

theorem hexDigit_lt {ch : Char} {p : Nat} (digit : hexDigit ch = some p) : p < 16 := by
  have nine : '9'.toNat = '0'.toNat + 9 := by decide
  have upperF : 'F'.toNat = 'A'.toNat + 5 := by decide
  have lowerF : 'f'.toNat = 'a'.toNat + 5 := by decide
  unfold hexDigit at digit
  split at digit
  next decimal => cases digit; omega
  next =>
    split at digit
    next upper => cases digit; omega
    next =>
      split at digit
      next lower => cases digit; omega
      next => cases digit

/-- Two digits spell the opcode exactly when their number is its value. -/
theorem ofNat_digits_eq_iff {x y : Char} {p q : Nat} (digitX : hexDigit x = some p) (digitY : hexDigit y = some q) :
    BitVec.ofNat 8 (16 * p + q) = Config.opcAddAB ↔ 16 * p + q = 0x80 := by
  have := hexDigit_lt digitX
  have := hexDigit_lt digitY
  rw [← BitVec.toNat_inj, BitVec.toNat_ofNat, Nat.mod_eq_of_lt (by omega : 16 * p + q < 2 ^ 8)]
  exact Iff.rfl

/-- No line is both: a directive begins with a period. -/
theorem spellsAddAB_directiveByte (rest : List Char) : spellsAddAB (directiveByte ++ rest) = false := by
  simp [← Bool.not_eq_true, spellsAddAB_iff, directiveByte, synonymAddAB, mnemonicAdd]

theorem assemble_of_spells {src : List Char} (spells : spellsAddAB src = true) : assemble src = some [0x80] := by
  rw [assemble, parseLine, if_pos spells]
  rfl

theorem assemble_of_dataByte {src : List Char} {v : Byte} (spells : spellsAddAB src = false)
    (data : dataByte src = some v) : assemble src = if v = Config.opcAddAB then none else some [v] := by
  by_cases opcode : v = Config.opcAddAB <;> simp [assemble, parseLine, spells, data, opcode, AsmItem.emit]

theorem assemble_of_neither {src : List Char} (spells : spellsAddAB src = false) (data : dataByte src = none) :
    assemble src = none := by
  simp [assemble, parseLine, spells, data]

/-- Only the spellings of `ADD A, B` give the opcode. -/
theorem assemble_eq_opcode_iff (src : List Char) : assemble src = some [0x80] ↔ spellsAddAB src = true := by
  refine ⟨fun opcode => ?_, assemble_of_spells⟩
  cases spells : spellsAddAB src with
  | true => rfl
  | false =>
    cases data : dataByte src with
    | none =>
      rw [assemble_of_neither spells data] at opcode
      cases opcode
    | some v =>
      rw [assemble_of_dataByte spells data] at opcode
      split at opcode
      next => cases opcode
      next notOpcode =>
        cases opcode
        exact absurd rfl notOpcode

end Sys2Proof.Machine

namespace Sys2Proof

open Sys2Proof.Machine

/-- Settles O32: a line spells the instruction, or is a data line, whose byte is not the opcode, or is refused. -/
theorem assemblerAcceptsExactlyTheSpellings : Obligations.AssemblerAcceptsExactlyTheSpellings := by
  refine ⟨fun src => ?_, fun x y p q digitX digitY => ?_, fun src notOpcode notData => ?_⟩
  · rw [assemble_eq_opcode_iff, spellsAddAB_iff]
    simp only [List.mem_cons, List.not_mem_nil, or_false]
    constructor
    · rintro (rfl | ⟨x, y, rfl | rfl, rfl | rfl, rfl⟩) <;> decide
    · rintro (rfl | rfl | rfl | rfl | rfl)
      · exact .inr ⟨'A', 'B', .inl rfl, .inl rfl, rfl⟩
      · exact .inr ⟨'A', 'b', .inl rfl, .inr rfl, rfl⟩
      · exact .inr ⟨'a', 'B', .inr rfl, .inl rfl, rfl⟩
      · exact .inr ⟨'a', 'b', .inr rfl, .inr rfl, rfl⟩
      · exact .inl rfl
  · have data := (dataByte_eq_some_iff _ _).2 ⟨x, y, p, q, digitX, digitY, rfl, rfl⟩
    have assembled := assemble_of_dataByte (spellsAddAB_directiveByte [x, y]) data
    simp only [ofNat_digits_eq_iff digitX digitY] at assembled
    exact assembled
  · have spells : spellsAddAB src = false :=
      Bool.not_eq_true _ ▸ fun spells => notOpcode (assemble_of_spells spells)
    have data : dataByte src = none := by
      refine Option.eq_none_iff_forall_ne_some.2 fun v some => ?_
      obtain ⟨x, y, p, q, digitX, digitY, -, line⟩ := (dataByte_eq_some_iff src v).1 some
      exact notData x y p q digitX digitY line
    exact assemble_of_neither spells data

end Sys2Proof
